-- ==== Sys2Proof/Word.lean ====
section
/-! DEFINITION. The word types of the block (10_state.md R20, 30_encoding.md R70). -/

namespace Sys2Proof

/-- A timestamp, a duration, a trace entry or a command argument: 32 bits, unsigned (R20, R83). -/
abbrev Word := BitVec 32

/-- A frame byte (R22, R84). -/
abbrev Byte := BitVec 8

/-- A command word `cmd[39:0]` (R70). -/
abbrev CmdWord := BitVec 40

end Sys2Proof
end

