-- ==== Sys2Proof/Machine/Operands.lean ====
section
/-! DEFINITION. The operand forms: how each command reads its `arg` (30_encoding.md R71). -/

namespace Sys2Proof.Machine

/-- SETUP_RX: `arg[0]` is the delivery mode, `arg[31:1]` is ignored (R71). -/
def deliveryMode (arg : Word) : Bool := arg.getLsbD 0

/-- EDGE: all 32 bits are the timestamp in microseconds (R71). -/
def timestamp (arg : Word) : Word := arg

end Sys2Proof.Machine
end

