-- ==== Sys2Proof/Syntax.lean ====
section
/-! DEFINITION. The five commands (30_encoding.md R70, R72), one constructor for each row of
spec/opcode_table.json. Each keeps its whole 32-bit `arg` field, so that what R71 says of ignored bits is a
statement about meanings and no bit of a command word is lost in decoding. -/

namespace Sys2Proof

/-- A command of the block. -/
inductive Instr where
  /-- INIT, `op` 0x01; all of `arg` is ignored (R91). -/
  | init (arg : Word)
  /-- SETUP_RX, `op` 0x02; `arg[0]` is the delivery mode, the rest is ignored (R170). -/
  | setupRx (arg : Word)
  /-- STOP_RX, `op` 0x03; all of `arg` is ignored (R171). -/
  | stopRx (arg : Word)
  /-- EDGE, `op` 0x04; `arg` is the timestamp of a transition (R100). -/
  | edge (t : Word)
  /-- RECEIVE, `op` 0x05; all of `arg` is ignored (R172). -/
  | receive (arg : Word)
  deriving DecidableEq, Repr

end Sys2Proof
end

