-- ==== Sys2Proof/Decode.lean ====
section
/-! DEFINITION. The decoder and the encoder of command words (30_encoding.md R70 to R73). -/

namespace Sys2Proof

/-- Why a command word has no instruction. -/
inductive DecodeError where
  /-- `op` is 0x00 or 0x06 to 0xFF (R73). -/
  | illegalOpcode (op : Byte)
  deriving DecidableEq, Repr

/-- `op = cmd[39:32]` (R70). -/
def opField (w : CmdWord) : Byte := w.extractLsb' 32 8

/-- `arg = cmd[31:0]` (R70). -/
def argField (w : CmdWord) : Word := w.extractLsb' 0 32

/-- `op ‖ arg` (R10, R70). -/
def makeWord (op : Byte) (arg : Word) : CmdWord := op ++ arg

/-- The decoder of R72: read `op`, look it up, pass `arg`; every other `op` is illegal (R73). -/
def decode (w : CmdWord) : Except DecodeError Instr :=
  match (opField w).toNat with
  | 0x01 => .ok (.init (argField w))
  | 0x02 => .ok (.setupRx (argField w))
  | 0x03 => .ok (.stopRx (argField w))
  | 0x04 => .ok (.edge (argField w))
  | 0x05 => .ok (.receive (argField w))
  | _ => .error (.illegalOpcode (opField w))

/-- The opcode column of R72. -/
def Instr.opcode : Instr → Byte
  | .init _ => 0x01
  | .setupRx _ => 0x02
  | .stopRx _ => 0x03
  | .edge _ => 0x04
  | .receive _ => 0x05

/-- The `arg` column of R72. -/
def Instr.arg : Instr → Word
  | .init a => a
  | .setupRx a => a
  | .stopRx a => a
  | .edge t => t
  | .receive a => a

/-- The command word of an instruction (R70, R72). -/
def encode (i : Instr) : CmdWord := makeWord i.opcode i.arg

/-- The mask of every row of the opcode map (R72). -/
def opcodeMask : CmdWord := 0xFF00000000

/-- The match column of the opcode map (R72). -/
def Instr.opcodeMatch : Instr → CmdWord
  | .init _ => 0x0100000000
  | .setupRx _ => 0x0200000000
  | .stopRx _ => 0x0300000000
  | .edge _ => 0x0400000000
  | .receive _ => 0x0500000000

/-- The command whose bits are `w` in the numbering of spec/opcode_table.json: a command is one 40-bit word, so
bit 0 is `cmd[0]`; a row shorter than 40 bits has zeros above; a longer one is no command of this block. -/
def decodeTableWord (nbits w : Nat) : Option Instr :=
  if nbits ≤ 40 then
    match decode (BitVec.ofNat 40 (w % 2 ^ nbits)) with
    | .ok i => some i
    | .error _ => none
  else none

end Sys2Proof
end

