-- ==== Sys2Proof/Config.lean ====
section
/-! DEFINITION. What an implementation fixes: the three open parameters of 00_scope.md R6. The spec leaves no
value of an instruction open (93_implementation_defined.md), so there is no free value here. -/

namespace Sys2Proof

/-- The open parameters of R6, fixed before reset (10_state.md R34 (c)). -/
structure Config where
  /-- `RFCNSYNC`: how many matching long pulses trigger a decode, 2 or 3. -/
  rfcnsync : Nat
  /-- `TRACE_CAP`: capacity of the trace, at least 18. -/
  traceCap : Nat
  /-- `MAXBYTES`: capacity of the frame byte buffer, at least 1. -/
  maxBytes : Nat
  deriving DecidableEq, Repr

/-- `IDX_W` of R6: the width of the write index. -/
def Config.idxW (c : Config) : Nat := Nat.clog 2 (c.traceCap + 1)

/-- `LEN_W` of R6: the width of the frame length. -/
def Config.lenW (c : Config) : Nat := Nat.clog 2 (c.maxBytes + 1)

end Sys2Proof
end

