-- ==== Sys2Proof/Machine/Params.lean ====
section
/-! DEFINITION. The fixed constants of 00_scope.md R5 and the parameter values the machine is reset with. -/

namespace Sys2Proof.Machine

/-- `SYNC_MIN_US` (R5): a longer duration is a sync candidate. -/
def syncMinUs : Nat := 5000

/-- `SYNC_TOL_US` (R5): tolerance of the comparison with `tr[0]`. -/
def syncTolUs : Nat := 200

/-- `MIN_CONSUMED` (R5): a decode that consumed fewer entries is rejected. -/
def minConsumed : Nat := 15

/-- `PAIR` (R5): trace entries for one data symbol. -/
def pairEntries : Nat := 2

/-- `BYTE_ENTRIES` (R5): trace entries for one output byte. -/
def byteEntries : Nat := 16

/-- `TX_REPEAT_DEFAULT` (R5): repetitions of the transmit reference function. -/
def txRepeatDefault : Nat := 10

/-- The parameters `State.reset` uses: the defaults of R6 for `TRACE_CAP` and `MAXBYTES`. R6 gives `RFCNSYNC` no
default. DESIGN CHOICE, unsafe: 2 (log entry 1). No statement rests on it. -/
def defaultConfig : Config := ⟨2, 256, 16⟩

end Sys2Proof.Machine
end

