-- ==== Sys2Proof/Machine/State.lean ====
section
/-! DEFINITION. The state of one block (10_state.md R20), its outputs (30_encoding.md R74, R75), the reasons a step
stops, and the state after reset (R35). -/

namespace Sys2Proof.Machine

/-- A storage space of R50: the written entries, each with its index, rising in the index and none of them 0; an
entry that is not listed holds 0, its reset value (R35). For the frame bytes this is a list of `Host.Cell`. -/
abbrev Memory (w : Nat) := List (Nat × BitVec w)

/-- The `status` field of a response (R74). -/
inductive Status where
  | ok
  | errNotInit
  | errIllegal
  deriving DecidableEq, Repr

/-- The fields `len`, `proto`, `data` of a RECEIVE response (R74) and of a FRAME event (R75). -/
structure FrameRecord where
  len : Nat
  proto : BitVec 2
  data : List Byte
  deriving DecidableEq, Repr

/-- The response record of R74; `frame` is present for a RECEIVE with status OK. -/
structure Response where
  status : Status
  frame : Option FrameRecord
  deriving DecidableEq, Repr

/-- What arrives at the block in one instant (R7, R8, R211): the model's own type, log entries 6 and 7. -/
inductive Arrival where
  /-- One command word, of the edge handler or of the host. -/
  | command (w : CmdWord)
  /-- A transition with timestamp `t` and a host command `w` in the same instant (R211). -/
  | together (t : Word) (w : CmdWord)
  deriving DecidableEq, Repr

/-- The state of one block instance (R20), with its configuration, outputs and input. -/
structure State where
  /-- The open parameters (R6, R34); no command writes them. -/
  cfg : Config
  /-- `init_done` (R24). -/
  initDone : Bool
  /-- `rx_en` (R24). -/
  rxEn : Bool
  /-- `push_en` (R24). -/
  pushEn : Bool
  /-- The trace `tr[]` (R21). -/
  tr : Memory 32
  /-- `idx`, the write index (R25). -/
  idx : Nat
  /-- `cnt`, the consecutive-sync counter (R26). -/
  cnt : BitVec 2
  /-- `last_ts`, the last edge timestamp (R27). -/
  lastTs : Word
  /-- The frame bytes `fb[]` (R22). -/
  fb : Memory 8
  /-- `flen`, the frame length (R28). -/
  flen : Nat
  /-- `fproto`, the protocol id of the buffered frame (R29). -/
  fproto : BitVec 2
  /-- The response of the command just executed (R74), none if the last step executed no command. -/
  rsp : Option Response
  /-- The FRAME event of the command just executed (R75). -/
  event : Option FrameRecord
  /-- The fault mark of R204: set by an interface fault, never cleared. -/
  faulted : Bool
  /-- The arrivals not yet executed, first to arrive first: the environment's input. -/
  pending : List Arrival
  deriving DecidableEq, Repr

/-- Why a step stops with a fault. Both are the model's own and neither is reached from reset (R51). -/
inductive Fault where
  /-- EDGE with a trace index at or past `TRACE_CAP`, an entry R50 says does not exist. Raised by the append and by
  the hand-over to the decoder; possible only when `idx` holds a value R25 calls illegal. Safe. -/
  | traceIndex
  /-- RECEIVE with a frame byte index at or past `MAXBYTES`; possible only when `flen` holds a value R28 calls
  illegal. Safe. -/
  | frameIndex
  deriving DecidableEq, Repr

/-- Why a step is refused. -/
inductive Refusal where
  /-- An instruction without a meaning; no arm of `exec` answers it in this model. Safe. -/
  | notModelled (mnemonic : String)
  /-- `step` in a state whose parameters are outside R6 (93_implementation_defined.md U5, U6: refuse). Safe. -/
  | illegalConfig
  deriving DecidableEq, Repr

/-- The state after reset of a block with parameters `c` (R35, R230). -/
def State.resetWith (c : Config) : State where
  cfg := c
  initDone := false
  rxEn := false
  pushEn := false
  tr := []
  idx := 0
  cnt := 0
  lastTs := 0
  fb := []
  flen := 0
  fproto := 0
  rsp := none
  event := none
  faulted := false
  pending := []

/-- The state after reset (R35), with the parameters of `defaultConfig` and nothing pending. -/
def State.reset : State := State.resetWith defaultConfig

end Sys2Proof.Machine
end

