-- ==== Sys2Proof/Machine/Ops.lean ====
section
/-! DEFINITION. The named operations over the storage spaces and the registers, the interface faults as one shared
operation, and the arrival of commands. Every write of a meaning goes through an operation of this file. -/

namespace Sys2Proof.Machine

/-! ### Storage spaces (20_memory.md R50, R55) -/

/-- The entry at index `a`; 0 where nothing is listed (R35). -/
def Memory.read {w : Nat} (m : Memory w) (a : Nat) : BitVec w :=
  match m with
  | [] => 0
  | (b, v) :: rest => if b = a then v else Memory.read rest a

/-- The space with no entry listed at index `a`. -/
def Memory.erase {w : Nat} (m : Memory w) (a : Nat) : Memory w :=
  m.filter fun c => c.1 != a

/-- The space with `(a, v)` listed before the first entry of a greater index. -/
def Memory.insert {w : Nat} (m : Memory w) (a : Nat) (v : BitVec w) : Memory w :=
  match m with
  | [] => [(a, v)]
  | c :: rest => if a < c.1 then (a, v) :: c :: rest else c :: Memory.insert rest a v

/-- Writing one whole unit (R55). Writing 0, what an unlisted entry holds, removes the entry. -/
def Memory.write {w : Nat} (m : Memory w) (a : Nat) (v : BitVec w) : Memory w :=
  if v = 0 then m.erase a else (m.erase a).insert a v

/-- Writing `vs` at `a`, `a + 1` and so on, in that order (R152). -/
def Memory.writeAll {w : Nat} (m : Memory w) (a : Nat) (vs : List (BitVec w)) : Memory w :=
  match vs with
  | [] => m
  | v :: rest => Memory.writeAll (m.write a v) (a + 1) rest

/-- The entries `a`, `a + 1`, …, `a + n - 1`. -/
def Memory.slice {w : Nat} (m : Memory w) (a n : Nat) : List (BitVec w) :=
  (List.range n).map fun k => m.read (a + k)

/-- The canonical form: indices rising, no listed 0. -/
def Memory.wf {w : Nat} (m : Memory w) : Bool :=
  decide (m.Pairwise fun x y => x.1 < y.1) && m.all fun c => c.2 != 0

/-- Nothing is listed at or past `cap`. -/
def Memory.within {w : Nat} (m : Memory w) (cap : Nat) : Bool := m.all fun c => decide (c.1 < cap)

/-! ### Registers (10_state.md R21 to R29) -/

/-- `init_done <- 1` (R91). -/
def State.setInit (s : State) : State := { s with initDone := true }

/-- `rx_en <- en; push_en <- push` (R170, R171). -/
def State.setReception (s : State) (en push : Bool) : State := { s with rxEn := en, pushEn := push }

/-- Clearing the whole trace, `idx`, `cnt` and `last_ts` (R170, R171). -/
def State.clearTrace (s : State) : State := { s with tr := [], idx := 0, cnt := 0, lastTs := 0 }

/-- `idx <- 0` (R104, R125, R126, R127). -/
def State.restart (s : State) : State := { s with idx := 0 }

/-- `cnt <- c`, a 2-bit register (R26). -/
def State.setCnt (s : State) (c : Nat) : State := { s with cnt := BitVec.ofNat 2 c }

/-- The three writes of `Append(d, t)` (R103): `tr[idx] <- d; idx <- idx + 1; last_ts <- t`. -/
def State.store (s : State) (d t : Word) : State :=
  { s with tr := s.tr.write s.idx d, idx := s.idx + 1, lastTs := t }

/-- `Append(d, t)` (R103); `tr[idx]` must exist (R50, R51). -/
def State.append (s : State) (d t : Word) : Except Fault State :=
  if s.idx < s.cfg.traceCap then .ok (s.store d t) else .error .traceIndex

/-- `fb[j] <- out[j]` for every byte of `out`, in order (R152). -/
def State.writeFrame (s : State) (out : List Byte) : State := { s with fb := s.fb.writeAll 0 out }

/-- `fproto <- p` (R152). -/
def State.setProto (s : State) (p : BitVec 2) : State := { s with fproto := p }

/-- `flen <- n` (R152, R172). -/
def State.setLen (s : State) (n : Nat) : State := { s with flen := n }

/-- A reset of a running block (R230): how it is signalled is not specified and it is no command. Every register takes
its value of R35; the parameters are fixed before reset (R34). R35 and R230 say nothing of the rest, so the rest is the
model's, log entry 20. DESIGN CHOICE, unsafe: the arrivals not yet executed stay, being the environment's (R208), and the
outputs are empty. DEDUCED, safe: the fault mark stays, being never cleared (R204). -/
def State.applyReset (s : State) : State :=
  { State.resetWith s.cfg with faulted := s.faulted, pending := s.pending }

/-! ### Outputs (30_encoding.md R74, R75) -/

/-- A command's outputs are its own: no response and no event yet. -/
def State.openOutputs (s : State) : State := { s with rsp := none, event := none }

/-- `return rsp(...)` (R11, R74). -/
def State.respond (s : State) (st : Status) (f : Option FrameRecord) : State :=
  { s with rsp := some ⟨st, f⟩ }

/-- `emit FRAME(len, proto, data)` (R75, R173). -/
def State.emit (s : State) (f : FrameRecord) : State := { s with event := some f }

/-! ### Interface faults (60_exceptions.md R204) -/

/-- The two interface faults. -/
inductive InterfaceFault where
  | notInitialised
  | illegalCommand
  deriving DecidableEq, Repr

/-- The status a fault is answered with (R204). -/
def InterfaceFault.status : InterfaceFault → Status
  | .notInitialised => .errNotInit
  | .illegalCommand => .errIllegal

/-- `raise F` (R11, R204): no register changes, no event, the status says which fault, and the run is marked. This is
the shared operation of both faults; the block goes on with the next command (95_test_vectors.md P4). -/
def State.raise (s : State) (f : InterfaceFault) : State :=
  { s with rsp := some ⟨f.status, none⟩, event := none, faulted := true }

/-- The first check of every command but INIT (R204, R210): with `init_done = 0` the command raises
`NotInitialised`, else it runs with its outputs empty. -/
def State.guarded (s : State) (run : State → Host.Outcome State Fault Refusal) :
    Host.Outcome State Fault Refusal :=
  if s.initDone then run s.openOutputs else .next (s.raise .notInitialised)

/-! ### Arrival of commands (00_scope.md R7, 60_exceptions.md R211) -/

/-- The arrivals that are left are `q`. -/
def State.setPending (s : State) (q : List Arrival) : State := { s with pending := q }

/-- The next command word and the state without it. Of a transition and a host command in the same instant the EDGE
comes first (R211). -/
def State.fetch (s : State) : Option (CmdWord × State) :=
  match s.pending with
  | [] => none
  | .command w :: q => some (w, s.setPending q)
  | .together t w :: q => some (encode (.edge t), s.setPending (.command w :: q))

/-- The word arrives before everything that is pending. -/
def State.arrive (s : State) (w : CmdWord) : State := s.setPending (.command w :: s.pending)

end Sys2Proof.Machine
end

