-- ==== Sys2Proof/Machine/Control.lean ====
section
/-! DEFINITION. INIT (40_protocol_table.md R91), SETUP_RX and STOP_RX (44_delivery_sink.md R170, R171). -/

namespace Sys2Proof.Machine

/-- INIT (R91): `init_done <- 1` and nothing else; it cannot fail. -/
def execInit (_arg : Word) (s : State) : Host.Outcome State Fault Refusal :=
  .next (s.openOutputs.setInit.respond .ok none)

/-- SETUP_RX (R170): a clean trace, the delivery mode of `arg[0]`, reception enabled. -/
def execSetupRx (arg : Word) (s : State) : Host.Outcome State Fault Refusal :=
  s.guarded fun s => .next ((s.clearTrace.setReception true (deliveryMode arg)).respond .ok none)

/-- STOP_RX (R171): a clean trace, reception and push disabled. -/
def execStopRx (_arg : Word) (s : State) : Host.Outcome State Fault Refusal :=
  s.guarded fun s => .next ((s.clearTrace.setReception false false).respond .ok none)

end Sys2Proof.Machine
end

