-- ==== Sys2Proof/Machine/Delivery.lean ====
section
/-! DEFINITION. RECEIVE (44_delivery_sink.md R172), the pull delivery. The push delivery is the FRAME event of
`State.publish`. -/

namespace Sys2Proof.Machine

/-- The record a RECEIVE returns: `flen`, `fproto` and `fb[0..flen-1]` (R172, R59). -/
def State.frameRecord (s : State) : FrameRecord := ⟨s.flen, s.fproto, s.fb.slice 0 s.flen⟩

/-- RECEIVE (R172): the snapshot, then `flen <- 0`. The bytes `fb[0..flen-1]` must exist (R50). -/
def execReceive (_arg : Word) (s : State) : Host.Outcome State Fault Refusal :=
  s.guarded fun s =>
    if s.flen ≤ s.cfg.maxBytes then .next ((s.setLen 0).respond .ok (some s.frameRecord))
    else .fault .frameIndex

end Sys2Proof.Machine
end

