-- ==== Sys2Proof/Machine/Protocol.lean ====
section
/-! DEFINITION. The protocol table `PT` (40_protocol_table.md R90), a constant of the block (10_state.md R31). -/

namespace Sys2Proof.Machine

/-- The three protocols (R90). -/
inductive Proto where
  | v1
  | v2
  | v3
  deriving DecidableEq, Repr

/-- A table entry (R31): `base` in microseconds, the rest unit counts. -/
structure ProtoEntry where
  base : Nat
  zeroHi : Nat
  zeroLo : Nat
  oneHi : Nat
  oneLo : Nat
  syncHi : Nat
  syncLo : Nat
  deriving DecidableEq, Repr

/-- `PT[p]` (R90). -/
def Proto.entry : Proto → ProtoEntry
  | .v1 => { base := 350, zeroHi := 1, zeroLo := 3, oneHi := 3, oneLo := 1, syncHi := 1, syncLo := 31 }
  | .v2 => { base := 650, zeroHi := 1, zeroLo := 2, oneHi := 2, oneLo := 1, syncHi := 1, syncLo := 10 }
  | .v3 => { base := 100, zeroHi := 4, zeroLo := 11, oneHi := 9, oneLo := 6, syncHi := 1, syncLo := 71 }

/-- The numeric protocol id (R80); 0 is no protocol. -/
def Proto.id : Proto → BitVec 2
  | .v1 => 1
  | .v2 => 2
  | .v3 => 3

/-- The fixed trial order of the sweep (R140). -/
def sweepOrder : List Proto := [.v1, .v2, .v3]

/-- The 52-bit packing of an entry (R82). -/
def ProtoEntry.pack (e : ProtoEntry) : BitVec 52 :=
  BitVec.ofNat 10 e.base ++ BitVec.ofNat 7 e.zeroHi ++ BitVec.ofNat 7 e.zeroLo ++ BitVec.ofNat 7 e.oneHi ++
    BitVec.ofNat 7 e.oneLo ++ BitVec.ofNat 7 e.syncHi ++ BitVec.ofNat 7 e.syncLo

/-- The unit counts (high, low) of the data symbol of a bit (R90, R81). -/
def ProtoEntry.symbol (e : ProtoEntry) (bit : Bool) : Nat × Nat :=
  if bit then (e.oneHi, e.oneLo) else (e.zeroHi, e.zeroLo)

end Sys2Proof.Machine
end

