-- ==== Sys2Proof/Machine/FrameDecoder.lean ====
section
/-! DEFINITION. The frame decoder (43_frame_decoder.md): `Decode`, `Sweep` and `Publish`. All arithmetic is on
natural numbers, so no comparison wraps (00_scope.md R9). -/

namespace Sys2Proof.Machine

/-- `ref = tr[0] div PT[p].sync_lo` (R142). -/
def refUnit (tr : Memory 32) (p : Proto) : Nat := (tr.read 0).toNat / p.entry.syncLo

/-- `tol = ref div 2` (R143). -/
def tolerance (ref : Nat) : Nat := ref / 2

/-- `InWin(v, units)` (R144): `ref * units - tol < v < ref * units + tol`, on integers. -/
def inWindow (ref : Nat) (v : Word) (units : Nat) : Bool :=
  decide ((ref * units : Int) - tolerance ref < v.toNat) && decide (v.toNat < ref * units + tolerance ref)

/-- `Classify(h, l)` (R145): ONE is tested first. -/
def classify (p : Proto) (ref : Nat) (h l : Word) : Option Bool :=
  if inWindow ref h p.entry.oneHi && inWindow ref l p.entry.oneLo then some true
  else if inWindow ref h p.entry.zeroHi && inWindow ref l p.entry.zeroLo then some false
  else none

/-- The symbol of data bit `k`: its pair is (`tr[2k+1]`, `tr[2k+2]`), high phase first (R54, R145). -/
def symbolAt (tr : Memory 32) (p : Proto) (k : Nat) : Option Bool :=
  classify p (refUnit tr p) (tr.read (2 * k + 1)) (tr.read (2 * k + 2))

/-- Bit number `k` of a frame: byte `k div 8`, position `7 - k mod 8`, most significant bit first (R52). -/
def frameBit (bytes : List Byte) (k : Nat) : Bool := (bytes.getD (k / 8) 0).getLsbD (7 - k % 8)

/-- Appending decoded bit number `b` (R147): a new byte starts as 0x00, bit `b` goes to byte `b div 8`, position
`7 - b mod 8`. -/
def putBit (out : List Byte) (b : Nat) (bit : Bool) : List Byte :=
  let out' := if b % 8 = 0 then out ++ [0] else out
  out'.modify (b / 8) fun x => x ||| ((BitVec.ofBool bit).setWidth 8 <<< (7 - b % 8))

/-- The scan of R146 from bit number `b` on, `pos = 2 * b + 1`, with `out` packed so far: it stops at the end of data
(S1), at a pair that is no symbol (S2) or with the byte buffer full (S3) (R148). `fuel` bounds the number of pairs;
`decodeWith` gives more than the trace can hold. -/
def scan (maxBytes : Nat) (tr : Memory 32) (p : Proto) (ref n : Nat) : Nat → Nat → List Byte → Nat × List Byte
  | 0, b, out => (b, out)
  | fuel + 1, b, out =>
    let pos := 2 * b + 1
    if pos + 1 < n ∧ b < 8 * maxBytes then
      match classify p ref (tr.read pos) (tr.read (pos + 1)) with
      | none => (b, out)
      | some bit => scan maxBytes tr p ref n fuel (b + 1) (putBit out b bit)
    else (b, out)

/-- The result of `Decode` (R141). -/
inductive DecodeResult where
  | reject
  | accept (out : List Byte) (nbytes : Nat)
  deriving DecidableEq, Repr

/-- The acceptance test and the byte count (R149, R150, R151) for `b` decoded bits. -/
def acceptance (b : Nat) (out : List Byte) : DecodeResult :=
  let consumed := pairEntries * b
  if consumed < minConsumed then .reject
  else .accept out ((consumed + (byteEntries - 2)) / byteEntries)

/-- `Decode(p, n)` (R141, R146). -/
def decodeFrame (maxBytes : Nat) (tr : Memory 32) (p : Proto) (n : Nat) : DecodeResult :=
  let r := scan maxBytes tr p (refUnit tr p) n n 0 []
  acceptance r.1 r.2

/-- An accepted frame: its protocol, bytes and byte count. -/
structure Accepted where
  proto : Proto
  out : List Byte
  nbytes : Nat
  deriving DecidableEq, Repr

/-- The first acceptance among `ps`, in order (R140). -/
def firstAccepted (maxBytes : Nat) (tr : Memory 32) (n : Nat) : List Proto → Option Accepted
  | [] => none
  | p :: rest =>
    match decodeFrame maxBytes tr p n with
    | .accept out nbytes => some ⟨p, out, nbytes⟩
    | .reject => firstAccepted maxBytes tr n rest

/-- The result of the sweep over V1, V2, V3 (R140). -/
def sweepResult (maxBytes : Nat) (tr : Memory 32) (n : Nat) : Option Accepted :=
  firstAccepted maxBytes tr n sweepOrder

/-- The record of an accepted frame (R74, R173). -/
def Accepted.record (a : Accepted) : FrameRecord := ⟨a.nbytes, a.proto.id, a.out.take a.nbytes⟩

/-- `Publish(out, nbytes, p)` (R152): bytes, then `fproto`, then `flen` last (R58), then FRAME in push mode (R173). -/
def State.publish (s : State) (a : Accepted) : State :=
  let s' := ((s.writeFrame (a.out.take a.nbytes)).setProto a.proto.id).setLen a.nbytes
  if s.pushEn then s'.emit a.record else s'

/-- `Sweep(n)` (R140): it reads `tr[0..n-1]`, so those entries must exist (R50); a sweep that accepts nothing writes
nothing (R153). -/
def State.sweep (s : State) (n : Nat) : Except Fault State :=
  if n ≤ s.cfg.traceCap then
    match sweepResult s.cfg.maxBytes s.tr n with
    | some a => .ok (s.publish a)
    | none => .ok s
  else .error .traceIndex

end Sys2Proof.Machine
end

