-- ==== Sys2Proof/Machine/SyncDetector.lean ====
section
/-! DEFINITION. The sync detector (42_sync_detector.md): `SyncStep` and its two tests. -/

namespace Sys2Proof.Machine

/-- The candidate test (R121): strictly longer than 5000. -/
def isCandidate (d : Word) : Bool := decide (syncMinUs < d.toNat)

/-- The match test (R122): `abs(d - tr[0]) < 200` on integers. -/
def State.isMatch (s : State) (d : Word) : Bool :=
  decide (((d.toNat : Int) - (s.tr.read 0).toNat).natAbs < syncTolUs)

/-- The number of entries handed to the decoder, `max(idx - 1, 0)` (R124). -/
def State.handOverLen (s : State) : Nat := s.idx - 1

/-- The counter after a match, before it is compared with `RFCNSYNC` (R123). -/
def State.matchCount (s : State) : Nat := s.cnt.toNat + 1

/-- The hand-over (R123, R124, R212, R213): the sweep with `cnt` already increased, then `cnt <- 0`. Nothing is saved
on entry and nothing restored on return. -/
def State.handOver (s : State) : Except Fault State :=
  match (s.setCnt s.matchCount).sweep s.handOverLen with
  | .ok s' => .ok (s'.setCnt 0)
  | .error f => .error f

/-- `SyncStep(d)` (R120), for a candidate `d`. A mismatch keeps `cnt` (R125, 90_conflicts.md C1). Every path ends with
`idx <- 0` (R125, R126, R127). -/
def State.syncStep (s : State) (d : Word) : Except Fault State :=
  if s.isMatch d then
    if s.matchCount = s.cfg.rfcnsync then
      match s.handOver with
      | .ok s' => .ok s'.restart
      | .error f => .error f
    else .ok (s.setCnt s.matchCount).restart
  else .ok s.restart

end Sys2Proof.Machine
end

