-- ==== Sys2Proof/Machine/Edge.lean ====
section
/-! DEFINITION. EDGE (41_edge_timer_ring.md R100): the edge timer, the short branch with its overflow restart, the
whole command, and the outcome labels of 60_exceptions.md R205. -/

namespace Sys2Proof.Machine

/-- `Duration(t) = (t - last_ts) mod 2^32` (R102). -/
def State.duration (s : State) (t : Word) : Word := t - s.lastTs

/-- The trace is full (R104). -/
def State.traceFull (s : State) : Bool := decide (s.cfg.traceCap ≤ s.idx)

/-- The short branch (R104): with a full trace `idx <- 0; cnt <- 0`. -/
def State.shortStep (s : State) : State := if s.traceFull then s.restart.setCnt 0 else s

/-- What EDGE does before the append: the long branch or the short branch (R100). -/
def State.edgeBranch (s : State) (d : Word) : Except Fault State :=
  if isCandidate d then s.syncStep d else .ok s.shortStep

/-- EDGE with reception enabled (R100), less its response. -/
def State.runEdge (s : State) (t : Word) : Except Fault State :=
  match s.edgeBranch (s.duration t) with
  | .ok s' => s'.append (s.duration t) t
  | .error f => .error f

/-- EDGE (R100); ignored while `rx_en = 0` (R101). -/
def execEdge (arg : Word) (s : State) : Host.Outcome State Fault Refusal :=
  s.guarded fun s =>
    if s.rxEn then
      match s.runEdge (timestamp arg) with
      | .ok s' => .next (s'.respond .ok none)
      | .error f => .fault f
    else .next (s.respond .ok none)

/-- The outcome labels of an executed EDGE (R205). -/
inductive OutcomeLabel where
  | ignored
  | short
  | overflow
  | syncMismatch
  | syncMatch
  | decodeFail
  | decoded (p : Proto)
  deriving DecidableEq, Repr

/-- The code of a label (R205). -/
def OutcomeLabel.code : OutcomeLabel → Nat
  | .ignored => 0
  | .short => 1
  | .overflow => 2
  | .syncMismatch => 3
  | .syncMatch => 4
  | .decodeFail => 5
  | .decoded _ => 6

/-- The label of `EDGE t` in a state with `init_done = 1` (R205): a name for the path, no register of the block. -/
def State.edgeLabel (s : State) (t : Word) : OutcomeLabel :=
  if !s.rxEn then .ignored
  else if isCandidate (s.duration t) then
    if s.isMatch (s.duration t) then
      if s.matchCount = s.cfg.rfcnsync then
        match sweepResult s.cfg.maxBytes s.tr s.handOverLen with
        | some a => .decoded a.proto
        | none => .decodeFail
      else .syncMatch
    else .syncMismatch
  else if s.traceFull then .overflow
  else .short

/-- The index at which `EDGE t` stores its duration (R103): 0 after a long pulse or an overflow, else `idx`. -/
def State.edgeIndex (s : State) (t : Word) : Nat :=
  if isCandidate (s.duration t) || s.traceFull then 0 else s.idx

end Sys2Proof.Machine
end

