-- ==== Sys2Proof/Machine/Dispatch.lean ====
section
/-! DEFINITION. One arm for each command, each a direct call of its meaning. -/

namespace Sys2Proof.Machine

def exec (i : Instr) (s : State) : Host.Outcome State Fault Refusal :=
  match i with
  | .init arg => Sys2Proof.Machine.execInit arg s
  | .setupRx arg => Sys2Proof.Machine.execSetupRx arg s
  | .stopRx arg => Sys2Proof.Machine.execStopRx arg s
  | .edge t => Sys2Proof.Machine.execEdge t s
  | .receive arg => Sys2Proof.Machine.execReceive arg s

end Sys2Proof.Machine
end

