-- ==== Sys2Proof/WellFormed.lean ====
section
/-! DEFINITION. The checks on what the model is given: a command written as 30_encoding.md R71 asks, and a
configuration inside the legal values of 00_scope.md R6. -/

namespace Sys2Proof

/-- "Ignored bits should be written as 0" (R71). Such a command is one the textual form of R85 can name. The block
executes every other `arg` too, so no meaning depends on this check. -/
def Instr.WellFormed : Instr → Bool
  | .init arg => arg == 0
  | .setupRx arg => arg &&& 0xFFFFFFFE == 0
  | .stopRx arg => arg == 0
  | .edge _ => true
  | .receive arg => arg == 0

/-- The legal values of the open parameters (R6; 93_implementation_defined.md U4, U5, U6). -/
def Config.Legal (c : Config) : Bool :=
  (c.rfcnsync == 2 || c.rfcnsync == 3) && decide (18 ≤ c.traceCap) && decide (1 ≤ c.maxBytes)

end Sys2Proof
end

