-- ==== Sys2Proof/Machine/Step.lean ====
section
/-! DEFINITION. One step of the block (00_scope.md R7): the next command that has arrived is decoded and executed. -/

namespace Sys2Proof.Machine

/-- One step. Parameters outside R6 are refused (93_implementation_defined.md U5, U6). With nothing arrived the block
waits and answers nothing (U24). The opcode is checked before anything else (R210); an illegal one is the interface
fault `IllegalCommand` (R204). -/
def step (s : State) : Host.Outcome State Fault Refusal :=
  if s.cfg.Legal then
    match s.fetch with
    | none => .next s.openOutputs
    | some (w, s') =>
      match decode w with
      | .ok i => exec i s'
      | .error _ => .next (s'.raise .illegalCommand)
  else .refused .illegalConfig

/-- The command of bits `w` (numbered as in spec/opcode_table.json, zeros above `nbits`) arrives next. -/
def State.withFetchWord (s : State) (nbits w : Nat) : State :=
  s.arrive (BitVec.ofNat 40 (w % 2 ^ nbits))

end Sys2Proof.Machine
end

