-- ==== Sys2Proof/Machine/TxReference.lean ====
section
/-! DEFINITION. The transmit reference functions (45_tx_reference.md): what pulses a sender produces. They own no state
of the block and have no command. -/

namespace Sys2Proof.Machine

/-- The level of a transmitted pulse (R190). -/
inductive Level where
  | high
  | low
  deriving DecidableEq, Repr

/-- A symbol of (high, low) unit counts as two pulses in microseconds (R190). -/
def ProtoEntry.pulses (e : ProtoEntry) (units : Nat × Nat) : List (Level × Nat) :=
  [(.high, units.1 * e.base), (.low, units.2 * e.base)]

/-- The bits of a byte, most significant first (R190, R52). -/
def byteBits (v : Byte) : List Bool := [7, 6, 5, 4, 3, 2, 1, 0].map v.getLsbD

/-- The bits of a byte list in the order they are sent (R52). -/
def frameBits (bytes : List Byte) : List Bool := bytes.flatMap byteBits

/-- One repetition: the data symbols, then one SYNC (R190). -/
def txFrame (p : Proto) (bytes : List Byte) : List (Level × Nat) :=
  (frameBits bytes).flatMap (fun b => p.entry.pulses (p.entry.symbol b)) ++
    p.entry.pulses (p.entry.syncHi, p.entry.syncLo)

/-- `TxStream(p, bytes, r)` (R190). -/
def txStream (p : Proto) (bytes : List Byte) (r : Nat) : List (Level × Nat) :=
  (List.replicate r (txFrame p bytes)).flatten

/-- `TxDurations(p, bytes, r)` (R191): the stream without the levels, as the durations the edge timer measures. -/
def txDurations (p : Proto) (bytes : List Byte) (r : Nat) : List Word :=
  (txStream p bytes r).map fun x => BitVec.ofNat 32 x.2

end Sys2Proof.Machine
end

