-- ==== Sys2Proof/Machine/Assembly.lean ====
section
/-! DEFINITION. The textual syntax (30_encoding.md R85) and the pseudo-commands (R86). A pseudo-command expands against
the register `last_ts` at that point, so a line is run, not translated beforehand. -/

namespace Sys2Proof.Machine

/-- One line of the syntax of R85 and R86; `word` is the raw command word of 95_test_vectors.md part 3. -/
inductive Line where
  | init
  | setupRx (push : Bool)
  | stopRx
  | edge (t : Word)
  | receive
  | word (w : CmdWord)
  | edgeD (d : Word)
  | feed (ds : List Word)
  | txfeed (p : Proto) (bytes : List Byte) (r : Nat)
  deriving DecidableEq, Repr

/-- The command a line of R85 stands for; none for a raw word and for a pseudo-command. -/
def Line.instr : Line → Option Instr
  | .init => some (.init 0)
  | .setupRx push => some (.setupRx (if push then 1 else 0))
  | .stopRx => some (.stopRx 0)
  | .edge t => some (.edge t)
  | .receive => some (.receive 0)
  | .word _ | .edgeD _ | .feed _ | .txfeed _ _ _ => none

/-- The text of a line of R85; none for a raw word and for a pseudo-command. -/
def Line.text : Line → Option String
  | .init => some "INIT"
  | .setupRx push => some (if push then "SETUP_RX push" else "SETUP_RX pull")
  | .stopRx => some "STOP_RX"
  | .edge t => some ("EDGE " ++ toString t.toNat)
  | .receive => some "RECEIVE"
  | .word _ | .edgeD _ | .feed _ | .txfeed _ _ _ => none

/-- `EDGE_D d` (R86 (a)): `EDGE t` with `t = (last_ts + d) mod 2^32`. -/
def State.edgeDelta (s : State) (d : Word) : Instr := .edge (s.lastTs + d)

/-- One command word arrives and is executed. -/
def State.submit (s : State) (w : CmdWord) : Host.Outcome State Fault Refusal := step (s.arrive w)

/-- `FEED d1, …, dk` (R86 (b)). -/
def State.feed (s : State) (ds : List Word) : Host.Outcome State Fault Refusal :=
  match ds with
  | [] => .next s
  | d :: rest =>
    match s.submit (encode (s.edgeDelta d)) with
    | .next s' => State.feed s' rest
    | .fault f => .fault f
    | .refused r => .refused r

/-- Running one line (R85, R86). -/
def Line.run (l : Line) (s : State) : Host.Outcome State Fault Refusal :=
  match l with
  | .init => s.submit (encode (.init 0))
  | .setupRx push => s.submit (encode (.setupRx (if push then 1 else 0)))
  | .stopRx => s.submit (encode (.stopRx 0))
  | .edge t => s.submit (encode (.edge t))
  | .receive => s.submit (encode (.receive 0))
  | .word w => s.submit w
  | .edgeD d => s.submit (encode (s.edgeDelta d))
  | .feed ds => s.feed ds
  | .txfeed p bytes r => s.feed (txDurations p bytes r)

/-- Running a text, line by line. -/
def runLines (ls : List Line) (s : State) : Host.Outcome State Fault Refusal :=
  match ls with
  | [] => .next s
  | l :: rest =>
    match l.run s with
    | .next s' => runLines rest s'
    | .fault f => .fault f
    | .refused r => .refused r

/-- `REPEAT k` around the lines `ls` (R86 (d)). -/
def repeatLines (k : Nat) (ls : List Line) : List Line := (List.replicate k ls).flatten

end Sys2Proof.Machine
end

