-- ==== Sys2Proof/Machine/Channels.lean ====
section
/-! DEFINITION. Several channels (60_exceptions.md R218, 20_memory.md R61): independent instances that share only the
protocol constants, each stepped on its own. -/

namespace Sys2Proof.Machine

/-- The states of several block instances. -/
abbrev Channels := List State

/-- Instance `k` makes one step; without an instance `k` nothing happens. -/
def stepChannel (cs : Channels) (k : Nat) : Host.Outcome Channels Fault Refusal :=
  match cs[k]? with
  | none => .next cs
  | some s =>
    match step s with
    | .next s' => .next (cs.set k s')
    | .fault f => .fault f
    | .refused r => .refused r

end Sys2Proof.Machine
end

