-- ==== Sys2Proof/Machine/Flags.lean ====
section
/-! DEFINITION. The status values derived from the flags (10_state.md R24, 60_exceptions.md R215) and the numeric
codes of statuses (30_encoding.md R74). There are no condition codes (R24). -/

namespace Sys2Proof.Machine

/-- The operating modes of R215. -/
inductive Mode where
  | uninit
  | idle
  | rxPull
  | rxPush
  deriving DecidableEq, Repr

/-- The mode is a value of the flags, not a register (R215). -/
def State.mode (s : State) : Mode :=
  if s.initDone then
    if s.rxEn then
      if s.pushEn then .rxPush else .rxPull
    else .idle
  else .uninit

/-- The derived status "frame available" (R24). -/
def State.frameAvailable (s : State) : Bool := s.flen != 0

/-- The code of a status (R74); 3 is never produced. -/
def Status.code : Status → BitVec 2
  | .ok => 0
  | .errNotInit => 1
  | .errIllegal => 2

end Sys2Proof.Machine
end

