-- ==== Sys2Proof/Safety.lean ====
section
/-! DEFINITION. What claims are stated with: the invariants of 10_state.md R33 with the canonical form of the storage
spaces, "no fault recorded" (60_exceptions.md R204), the effect every executed EDGE has (41_edge_timer_ring.md R103), and
which states no command can tell apart (10_state.md R21, R22). -/

namespace Sys2Proof.Machine

/-- The invariant of every reachable state: R33 (I1), (I2), (I4), (I5), (I6), the legal parameters of R6, and the form of
the two storage spaces (R50). (I3) is about the state after an EDGE and is stated on its own. -/
structure State.Inv (s : State) : Prop where
  legal : s.cfg.Legal = true
  /-- (I1) -/
  idx_le : s.idx ≤ s.cfg.traceCap
  /-- (I2) -/
  trace_zero : s.idx = 0 → ∀ i, s.tr.read i = 0
  /-- (I4) -/
  cnt_lt : s.cnt.toNat < s.cfg.rfcnsync
  /-- (I5) -/
  flen_le : s.flen ≤ s.cfg.maxBytes
  /-- (I5) -/
  proto_valid : s.flen ≠ 0 → s.fproto = 1 ∨ s.fproto = 2 ∨ s.fproto = 3
  /-- (I6) -/
  rx_init : s.rxEn = true → s.initDone = true
  /-- (I6) -/
  push_rx : s.pushEn = true → s.rxEn = true
  tr_wf : s.tr.wf = true
  tr_within : s.tr.within s.cfg.traceCap = true
  fb_wf : s.fb.wf = true
  fb_within : s.fb.within s.cfg.maxBytes = true

/-- "No fault recorded" (R204). -/
def State.Clean (s : State) : Prop := s.faulted = false

/-- The state an outcome leads to, if it leads to one. -/
def nextState : Host.Outcome State Fault Refusal → Option State
  | .next s => some s
  | .fault _ => none
  | .refused _ => none

/-- `EDGE x` is executed in `s` and measures the duration `d`: initialised, reception enabled, and
`d = (x - last_ts) mod 2^32` on integers (R100, R102). -/
structure EdgeMeasures (s : State) (x d : Word) : Prop where
  init : s.initDone = true
  rx : s.rxEn = true
  dur : ((x.toNat : Int) - s.lastTs.toNat) % 2 ^ 32 = d.toNat

/-- The effect of the append at index `k` (R103), the response, and what no EDGE writes (R30): from `s` to `t`, for
`EDGE x` with the duration `d`. -/
structure EdgeStored (s t : State) (x d : Word) (k : Nat) : Prop where
  entry : t.tr.read k = d
  others : ∀ i, i ≠ k → t.tr.read i = s.tr.read i
  idx : t.idx = k + 1
  lastTs : t.lastTs = x
  cfg : t.cfg = s.cfg
  initDone : t.initDone = s.initDone
  rxEn : t.rxEn = s.rxEn
  pushEn : t.pushEn = s.pushEn
  rsp : t.rsp = some ⟨.ok, none⟩
  faulted : t.faulted = s.faulted
  pending : t.pending = s.pending

/-- The frame registers and every frame byte are as before, and no event is emitted. -/
structure FrameKept (s t : State) : Prop where
  fb : ∀ j, t.fb.read j = s.fb.read j
  flen : t.flen = s.flen
  fproto : t.fproto = s.fproto
  event : t.event = none

/-- Equal but for the storage no command reads: trace entries at or past `idx` other than `tr[0]` (R21), and frame
bytes at or past `flen` (R22). -/
structure State.Alike (s t : State) : Prop where
  cfg : t.cfg = s.cfg
  initDone : t.initDone = s.initDone
  rxEn : t.rxEn = s.rxEn
  pushEn : t.pushEn = s.pushEn
  tr : ∀ i, i < s.idx ∨ i = 0 → t.tr.read i = s.tr.read i
  idx : t.idx = s.idx
  cnt : t.cnt = s.cnt
  lastTs : t.lastTs = s.lastTs
  fb : ∀ j, j < s.flen → t.fb.read j = s.fb.read j
  flen : t.flen = s.flen
  fproto : t.fproto = s.fproto
  rsp : t.rsp = s.rsp
  event : t.event = s.event
  faulted : t.faulted = s.faulted
  pending : t.pending = s.pending

end Sys2Proof.Machine
end

