-- ==== Sys2Proof/Certificates/Slice0/Obligations.lean ====
section
/-! DEFINITION. The statements for the provers, one `def Obligations.<Name> : Prop` each. -/

open Sys2Proof Sys2Proof.Machine

/-! ### Encoding -/

/-- Decoding and encoding agree, for every command, every operand and every word (30_encoding.md section 1). -/
def Obligations.DecodeEncodeAgree : Prop :=
  ∀ (w : CmdWord) (i : Instr), decode w = .ok i ↔ encode i = w

/-- The opcode map (R72): `(cmd & mask) = match` selects a command, which gets the 32 argument bits. -/
def Obligations.OpcodeMapSelectsCommand : Prop :=
  ∀ w : CmdWord,
    (w &&& 0xFF00000000 = 0x0100000000 ↔ decode w = .ok (.init (w.setWidth 32))) ∧
    (w &&& 0xFF00000000 = 0x0200000000 ↔ decode w = .ok (.setupRx (w.setWidth 32))) ∧
    (w &&& 0xFF00000000 = 0x0300000000 ↔ decode w = .ok (.stopRx (w.setWidth 32))) ∧
    (w &&& 0xFF00000000 = 0x0400000000 ↔ decode w = .ok (.edge (w.setWidth 32))) ∧
    (w &&& 0xFF00000000 = 0x0500000000 ↔ decode w = .ok (.receive (w.setWidth 32)))

/-- Command words written out in the spec decode to the commands, and the two illegal ones to the refusals, that the
spec gives them (30_encoding.md sections 1 and 2). Of 95_test_vectors.md: V-F8; then program P4 for SETUP_RX and STOP_RX
and P1 for EDGE and RECEIVE; then V-F5, also in P4, and V-F6. -/
def Obligations.WrittenWordsDecode : Prop :=
  decode 0x01DEADBEEF = .ok (.init 0xDEADBEEF) ∧
  decode 0x02FFFFFFFF = .ok (.setupRx 0xFFFFFFFF) ∧
  decode 0x0300000000 = .ok (.stopRx 0) ∧
  decode 0x04FFFF041A = .ok (.edge 0xFFFF041A) ∧
  decode 0x0500000000 = .ok (.receive 0) ∧
  decode 0x0000000000 = .error (.illegalOpcode 0) ∧
  decode 0x80FFFFFFFF = .error (.illegalOpcode 0x80)

/-- Illegal opcodes (R73): every `op` but 1 to 5 decodes to no command, and the step on such a word, in any mode, changes
no register, emits no event and answers `ERR_ILLEGAL`. The fault mark it sets is log entry 4. -/
def Obligations.IllegalOpcodeAnswersErrIllegal : Prop :=
  ∀ (s : State) (w : CmdWord) (q : List Arrival),
    ((∃ i, decode w = .ok i) ↔ 1 ≤ w.toNat / 2 ^ 32 ∧ w.toNat / 2 ^ 32 ≤ 5) ∧
    (s.cfg.Legal = true → s.pending = .command w :: q → ¬ (1 ≤ w.toNat / 2 ^ 32 ∧ w.toNat / 2 ^ 32 ≤ 5) →
      step s = .next { s with rsp := some ⟨.errIllegal, none⟩, event := none, faulted := true, pending := q })

/-- Argument use (R71): INIT, STOP_RX and RECEIVE ignore all 32 bits, SETUP_RX uses bit 0 only, an executed EDGE uses
all 32 as the timestamp. -/
def Obligations.ArgumentBitsUsed : Prop :=
  ∀ (a b : Word) (s : State),
    exec (.init a) s = exec (.init b) s ∧
    exec (.stopRx a) s = exec (.stopRx b) s ∧
    exec (.receive a) s = exec (.receive b) s ∧
    (a.getLsbD 0 = b.getLsbD 0 → exec (.setupRx a) s = exec (.setupRx b) s) ∧
    (s.initDone = true → ∃ t, exec (.setupRx a) s = .next t ∧ t.pushEn = a.getLsbD 0) ∧
    (∀ t, s.initDone = true → s.rxEn = true → exec (.edge a) s = .next t → t.lastTs = a)

/-! ### The step -/

/-- A step runs the decoded command on the state without the fetched word (R7). -/
def Obligations.StepRunsDecodedCommand : Prop :=
  ∀ (s : State) (w : CmdWord) (q : List Arrival) (i : Instr),
    s.cfg.Legal = true → s.pending = .command w :: q → decode w = .ok i →
      step s = exec i { s with pending := q }

/-- EDGE first (R211): of a transition and a host command in one instant the EDGE is executed by one step and the host
command by the next; a RECEIVE then returns the frame as the EDGE left it. -/
def Obligations.EdgeGoesBeforeHostCommand : Prop :=
  ∀ (s t : State) (x : Word) (w : CmdWord) (q : List Arrival) (i : Instr),
    s.cfg.Legal = true → s.pending = .together x w :: q → decode w = .ok i →
      step s = exec (.edge x) { s with pending := .command w :: q } ∧
      (step s = .next t → step t = exec i { t with pending := q } ∧
        ∀ a u, i = .receive a → s.initDone = true → step t = .next u →
          u.rsp = some ⟨.ok, some ⟨t.flen, t.fproto, (List.range t.flen).map t.fb.read⟩⟩)

/-- With nothing arrived the block waits in a normal state (93_implementation_defined.md U24). That such a step has no
response is the model's choice, log entry 6. -/
def Obligations.WaitsWithNothingPending : Prop :=
  ∀ s : State, s.cfg.Legal = true → s.pending = [] → step s = .next { s with rsp := none, event := none }

/-- Parameters outside R6 are refused (93_implementation_defined.md U5, U6; log entry 3). -/
def Obligations.IllegalParametersAreRefused : Prop :=
  ∀ s : State,
    step s = .refused .illegalConfig ↔
      ¬ ((s.cfg.rfcnsync = 2 ∨ s.cfg.rfcnsync = 3) ∧ 18 ≤ s.cfg.traceCap ∧ 1 ≤ s.cfg.maxBytes)

/-! ### Reset and invariants -/

/-- Reset values (R35), for every choice of the parameters. -/
def Obligations.ResetValues : Prop :=
  ∀ c : Config,
    (State.resetWith c).initDone = false ∧ (State.resetWith c).rxEn = false ∧ (State.resetWith c).pushEn = false ∧
    (∀ i, (State.resetWith c).tr.read i = 0) ∧ (State.resetWith c).idx = 0 ∧ (State.resetWith c).cnt = 0 ∧
    (State.resetWith c).lastTs = 0 ∧ (∀ j, (State.resetWith c).fb.read j = 0) ∧ (State.resetWith c).flen = 0 ∧
    (State.resetWith c).fproto = 0 ∧ (State.resetWith c).mode = .uninit ∧
    State.reset = State.resetWith defaultConfig

/-- The invariant holds after reset, for all legal parameters and for `State.reset` (10_state.md section 8). -/
def Obligations.ResetMeetsInvariant : Prop :=
  (∀ c : Config, c.Legal = true → (State.resetWith c).Inv) ∧ State.reset.Inv

/-- Every step keeps the invariants I1, I2, I4, I5, I6, the parameters and the form of the storage spaces
(10_state.md section 8). -/
def Obligations.StepKeepsInvariant : Prop :=
  ∀ s t : State, s.Inv → step s = .next t → t.Inv

/-- I3: after an EDGE executed with reception enabled `idx` is at least 1, and still within the capacity
(10_state.md section 8, 41_edge_timer_ring.md section 3). -/
def Obligations.ExecutedEdgeLeavesEntry : Prop :=
  ∀ (s t : State) (x : Word), s.initDone = true → s.rxEn = true → exec (.edge x) s = .next t →
    1 ≤ t.idx ∧ t.idx ≤ t.cfg.traceCap

/-- The registers whose widths follow from the parameters fit them (00_scope.md section 3, 92_eei_decisions.md D27). -/
def Obligations.RegistersFitTheirWidths : Prop :=
  ∀ s : State, s.Inv → s.idx < 2 ^ s.cfg.idxW ∧ s.flen < 2 ^ s.cfg.lenW

/-- The parameters are fixed before reset: no step changes them (10_state.md section 9). -/
def Obligations.ParametersNeverChange : Prop :=
  ∀ s t : State, step s = .next t → t.cfg = s.cfg

/-- `init_done` is never cleared except by reset, and only INIT sets it; `rx_en` and `push_en` change only by SETUP_RX
and STOP_RX (R24). Frame available is `flen` not 0. -/
def Obligations.FlagsChangeOnlyByTheirCommands : Prop :=
  ∀ (s t : State) (i : Instr), exec i s = .next t →
    (t.initDone = true ↔ s.initDone = true ∨ ∃ a, i = .init a) ∧
    (s.initDone = false ∨ (∀ a, i ≠ .setupRx a ∧ i ≠ .stopRx a) → t.rxEn = s.rxEn ∧ t.pushEn = s.pushEn) ∧
    (s.initDone = true → ∀ a, i = .setupRx a → t.rxEn = true ∧ t.pushEn = a.getLsbD 0) ∧
    (s.initDone = true → ∀ a, i = .stopRx a → t.rxEn = false ∧ t.pushEn = false) ∧
    (t.frameAvailable = true ↔ t.flen ≠ 0)

/-! ### Interface faults and modes -/

/-- Interface faults (R204): SETUP_RX, STOP_RX, EDGE, RECEIVE before INIT answer status 1, an illegal opcode in any mode
answers status 2, also before INIT; no register changes, no event is emitted, the run is marked, and no step clears the
mark. -/
def Obligations.InterfaceFaultsMarkTheRun : Prop :=
  (∀ (s : State) (a : Word) (i : Instr), s.initDone = false →
    (i = .setupRx a ∨ i = .stopRx a ∨ i = .edge a ∨ i = .receive a) →
      exec i s = .next { s with rsp := some ⟨.errNotInit, none⟩, event := none, faulted := true }) ∧
  (∀ (s : State) (w : CmdWord) (q : List Arrival), s.cfg.Legal = true → s.pending = .command w :: q →
    (w.toNat / 2 ^ 32 = 0 ∨ 6 ≤ w.toNat / 2 ^ 32) →
      step s = .next { s with rsp := some ⟨.errIllegal, none⟩, event := none, faulted := true, pending := q }) ∧
  (∀ s t : State, step s = .next t →
    (t.faulted = true ↔
      s.faulted = true ∨ t.rsp = some ⟨.errNotInit, none⟩ ∨ t.rsp = some ⟨.errIllegal, none⟩)) ∧
  Status.errNotInit.code = 1 ∧ Status.errIllegal.code = 2

/-- The modes and their transitions (R215). The premise is invariant I6. -/
def Obligations.ModeTransitions : Prop :=
  ∀ (s : State) (a : Word), (s.rxEn = true → s.initDone = true) → (s.pushEn = true → s.rxEn = true) →
    (s.mode = .uninit ↔ s.initDone = false) ∧
    (s.mode = .idle ↔ s.initDone = true ∧ s.rxEn = false) ∧
    (s.mode = .rxPull ↔ s.rxEn = true ∧ s.pushEn = false) ∧
    (s.mode = .rxPush ↔ s.rxEn = true ∧ s.pushEn = true) ∧
    (∃ t, exec (.init a) s = .next t ∧ t.mode = if s.mode = .uninit then .idle else s.mode) ∧
    (s.mode ≠ .uninit → ∃ t, exec (.setupRx a) s = .next t ∧
      t.mode = if a.getLsbD 0 = true then .rxPush else .rxPull) ∧
    (s.mode ≠ .uninit → ∃ t, exec (.stopRx a) s = .next t ∧ t.mode = .idle) ∧
    (∀ t, exec (.edge a) s = .next t ∨ exec (.receive a) s = .next t → t.mode = s.mode) ∧
    (∀ t, s.mode = .uninit → exec (.setupRx a) s = .next t ∨ exec (.stopRx a) s = .next t ∨
      exec (.edge a) s = .next t ∨ exec (.receive a) s = .next t → t.rsp = some ⟨.errNotInit, none⟩) ∧
    (s.mode = .idle → s.edgeLabel a = .ignored) ∧
    (s.mode = .rxPull ∨ s.mode = .rxPush → s.edgeLabel a ≠ .ignored)

/-! ### INIT, SETUP_RX, STOP_RX, RECEIVE -/

/-- INIT (R91): `init_done <- 1`, status OK, every other register unchanged, in every state. -/
def Obligations.InitResult : Prop :=
  ∀ (s : State) (a : Word),
    exec (.init a) s = .next { s with initDone := true, rsp := some ⟨.ok, none⟩, event := none }

/-- SETUP_RX (R170): a clean trace, the delivery mode, reception enabled, the frame registers untouched; the next EDGE
measures its own timestamp; before INIT it is `NotInitialised`. -/
def Obligations.SetupRxResult : Prop :=
  ∀ (s : State) (a : Word),
    (s.initDone = true → ∃ t,
      exec (.setupRx a) s = .next t ∧ (∀ i, t.tr.read i = 0) ∧
      t = { s with tr := [], idx := 0, cnt := 0, lastTs := 0, pushEn := a.getLsbD 0, rxEn := true,
                   rsp := some ⟨.ok, none⟩, event := none } ∧
      ∀ x, t.duration x = x) ∧
    (s.initDone = false →
      exec (.setupRx a) s = .next { s with rsp := some ⟨.errNotInit, none⟩, event := none, faulted := true })

/-- STOP_RX (R171): a clean trace, reception and push disabled, the frame registers untouched; every EDGE after it is
ignored; before INIT it is `NotInitialised`. -/
def Obligations.StopRxResult : Prop :=
  ∀ (s : State) (a : Word),
    (s.initDone = true → ∃ t,
      exec (.stopRx a) s = .next t ∧ (∀ i, t.tr.read i = 0) ∧
      t = { s with tr := [], idx := 0, cnt := 0, lastTs := 0, pushEn := false, rxEn := false,
                   rsp := some ⟨.ok, none⟩, event := none } ∧
      ∀ x, exec (.edge x) t = .next t) ∧
    (s.initDone = false →
      exec (.stopRx a) s = .next { s with rsp := some ⟨.errNotInit, none⟩, event := none, faulted := true })

/-- RECEIVE (R172): the snapshot of `flen`, `fproto` and the first `flen` bytes, then `flen <- 0`, in every mode after
INIT; a second RECEIVE returns length 0 and no data; before INIT it is `NotInitialised`. The premise on `flen` is
invariant I5. -/
def Obligations.ReceiveResult : Prop :=
  ∀ (s : State) (a b : Word),
    (s.initDone = true → s.flen ≤ s.cfg.maxBytes → ∃ t,
      exec (.receive a) s = .next t ∧
      t = { s with flen := 0, event := none,
                   rsp := some ⟨.ok, some ⟨s.flen, s.fproto, (List.range s.flen).map s.fb.read⟩⟩ } ∧
      exec (.receive b) t = .next { t with rsp := some ⟨.ok, some ⟨0, s.fproto, []⟩⟩ }) ∧
    (s.initDone = false →
      exec (.receive a) s = .next { s with rsp := some ⟨.errNotInit, none⟩, event := none, faulted := true })

/-! ### EDGE -/

/-- `Duration` (R102): the difference modulo 2^32. -/
def Obligations.DurationIsWrapSafe : Prop :=
  ∀ (s : State) (x : Word),
    ((s.duration x).toNat : Int) = ((x.toNat : Int) - s.lastTs.toNat) % 2 ^ 32 ∧
    (x = s.lastTs → s.duration x = 0) ∧
    (s.lastTs = 0xFFFFFF00 → x = 0x00000100 → s.duration x = 512)

/-- An EDGE while reception is disabled is accepted with status OK and changes nothing (R101). -/
def Obligations.EdgeIgnoredWhileDisabled : Prop :=
  ∀ (s : State) (x : Word), s.initDone = true → s.rxEn = false →
    exec (.edge x) s = .next { s with rsp := some ⟨.ok, none⟩, event := none }

/-- A duration of at most 5000 with room in the trace is appended at `idx` and nothing else happens
(41_edge_timer_ring.md sections 1 and 3). -/
def Obligations.EdgeShortPulse : Prop :=
  ∀ (s : State) (x d : Word), EdgeMeasures s x d → d.toNat ≤ 5000 → s.idx < s.cfg.traceCap →
    ∃ t, exec (.edge x) s = .next t ∧ EdgeStored s t x d s.idx ∧ t.cnt = s.cnt ∧ FrameKept s t

/-- Overflow (R104): a duration of at most 5000 with a full trace restarts it; the counter is cleared, the pulse becomes
entry 0, the old entries are not erased. -/
def Obligations.EdgeOverflow : Prop :=
  ∀ (s : State) (x d : Word), EdgeMeasures s x d → d.toNat ≤ 5000 → 0 < s.cfg.traceCap →
    s.cfg.traceCap ≤ s.idx →
      ∃ t, exec (.edge x) s = .next t ∧ EdgeStored s t x d 0 ∧ t.cnt = 0 ∧ FrameKept s t

/-- Mismatch (R125): a candidate 200 or more away from `tr[0]` restarts the trace, becomes the new `tr[0]` and keeps the
counter. It is so with a full trace too. -/
def Obligations.EdgeSyncMismatch : Prop :=
  ∀ (s : State) (x d : Word), EdgeMeasures s x d → 5000 < d.toNat → 0 < s.cfg.traceCap →
    200 ≤ ((d.toNat : Int) - (s.tr.read 0).toNat).natAbs →
      ∃ t, exec (.edge x) s = .next t ∧ EdgeStored s t x d 0 ∧ t.cnt = s.cnt ∧ FrameKept s t

/-- Match below the threshold (R126): the counter goes up by one, the trace is dropped without being decoded and a fresh
one starts with the pulse in `tr[0]`. -/
def Obligations.EdgeMatchBelowThreshold : Prop :=
  ∀ (s : State) (x d : Word), EdgeMeasures s x d → 5000 < d.toNat → s.cfg.Legal = true →
    ((d.toNat : Int) - (s.tr.read 0).toNat).natAbs < 200 → s.cnt.toNat + 1 < s.cfg.rfcnsync →
      ∃ t, exec (.edge x) s = .next t ∧ EdgeStored s t x d 0 ∧ t.cnt.toNat = s.cnt.toNat + 1 ∧ FrameKept s t

/-- DecodeFailure (R202): a hand-over that every protocol rejects clears the counter, restarts the trace with the pulse
in `tr[0]`, and leaves the frame registers alone. The premise on `idx` is invariant I1. -/
def Obligations.EdgeDecodeFailure : Prop :=
  ∀ (s : State) (x d : Word), EdgeMeasures s x d → 5000 < d.toNat → 0 < s.cfg.traceCap →
    s.idx ≤ s.cfg.traceCap →
    ((d.toNat : Int) - (s.tr.read 0).toNat).natAbs < 200 → s.cnt.toNat + 1 = s.cfg.rfcnsync →
    (∀ p, decodeFrame s.cfg.maxBytes s.tr p (s.idx - 1) = .reject) →
      ∃ t, exec (.edge x) s = .next t ∧ EdgeStored s t x d 0 ∧ t.cnt = 0 ∧ FrameKept s t

/-- A hand-over that a protocol accepts, those before it having rejected: its bytes, id and length are published, bytes
past the length are kept, FRAME is emitted in push mode, the counter is cleared and the pulse becomes the new `tr[0]`
(42_sync_detector.md section 3, 43_frame_decoder.md sections 1 and 5). -/
def Obligations.EdgeDecodesFrame : Prop :=
  ∀ (s : State) (x d : Word) (p : Proto) (out : List Byte) (k : Nat),
    EdgeMeasures s x d → 5000 < d.toNat → 0 < s.cfg.traceCap → s.idx ≤ s.cfg.traceCap →
    ((d.toNat : Int) - (s.tr.read 0).toNat).natAbs < 200 → s.cnt.toNat + 1 = s.cfg.rfcnsync →
    decodeFrame s.cfg.maxBytes s.tr p (s.idx - 1) = .accept out k →
    (∀ q, q.id.toNat < p.id.toNat → decodeFrame s.cfg.maxBytes s.tr q (s.idx - 1) = .reject) →
      ∃ t, exec (.edge x) s = .next t ∧ EdgeStored s t x d 0 ∧ t.cnt = 0 ∧
        t.flen = k ∧ t.fproto = p.id ∧
        (∀ j, j < k → some (t.fb.read j) = out[j]?) ∧ (∀ j, k ≤ j → t.fb.read j = s.fb.read j) ∧
        t.event = if s.pushEn = true then some ⟨k, p.id, out⟩ else none

/-- From every state that meets the invariant every command has a next state: no legal command is stuck
(93_implementation_defined.md section 1). -/
def Obligations.EveryCommandCompletes : Prop :=
  ∀ (s : State) (i : Instr), s.Inv → ∃ t, exec i s = .next t

/-- The outcome labels (R205): each label holds on exactly its path, and each has its code. The premise is invariant
I4. -/
def Obligations.OutcomeLabelsAreThePaths : Prop :=
  ∀ (s : State) (x : Word), s.cnt.toNat < s.cfg.rfcnsync →
    (s.edgeLabel x = .ignored ↔ s.rxEn = false) ∧
    (s.edgeLabel x = .short ↔ s.rxEn = true ∧ (s.duration x).toNat ≤ 5000 ∧ s.idx < s.cfg.traceCap) ∧
    (s.edgeLabel x = .overflow ↔ s.rxEn = true ∧ (s.duration x).toNat ≤ 5000 ∧ s.cfg.traceCap ≤ s.idx) ∧
    (s.edgeLabel x = .syncMismatch ↔ s.rxEn = true ∧ 5000 < (s.duration x).toNat ∧ s.isMatch (s.duration x) = false) ∧
    (s.edgeLabel x = .syncMatch ↔ s.rxEn = true ∧ 5000 < (s.duration x).toNat ∧ s.isMatch (s.duration x) = true ∧
      s.cnt.toNat + 1 < s.cfg.rfcnsync) ∧
    (s.edgeLabel x = .decodeFail ↔ s.rxEn = true ∧ 5000 < (s.duration x).toNat ∧ s.isMatch (s.duration x) = true ∧
      s.cnt.toNat + 1 = s.cfg.rfcnsync ∧ ∀ p, decodeFrame s.cfg.maxBytes s.tr p (s.idx - 1) = .reject) ∧
    (∀ p, s.edgeLabel x = .decoded p ↔ s.rxEn = true ∧ 5000 < (s.duration x).toNat ∧
      s.isMatch (s.duration x) = true ∧ s.cnt.toNat + 1 = s.cfg.rfcnsync ∧
      (∃ out k, decodeFrame s.cfg.maxBytes s.tr p (s.idx - 1) = .accept out k) ∧
      ∀ q, q.id.toNat < p.id.toNat → decodeFrame s.cfg.maxBytes s.tr q (s.idx - 1) = .reject) ∧
    OutcomeLabel.ignored.code = 0 ∧ OutcomeLabel.short.code = 1 ∧ OutcomeLabel.overflow.code = 2 ∧
    OutcomeLabel.syncMismatch.code = 3 ∧ OutcomeLabel.syncMatch.code = 4 ∧ OutcomeLabel.decodeFail.code = 5 ∧
    ∀ p, (OutcomeLabel.decoded p).code = 6

/-- What changes the sync counter (R129): short pulses and mismatching long pulses do not, an overflow and a hand-over
clear it, a match below the threshold adds one, SETUP_RX and STOP_RX clear it, nothing else changes it. -/
def Obligations.CounterChanges : Prop :=
  ∀ (s t : State) (x : Word), s.initDone = true → s.cfg.Legal = true → s.cnt.toNat < s.cfg.rfcnsync →
    (exec (.edge x) s = .next t → t.cnt.toNat =
      match s.edgeLabel x with
      | .ignored | .short | .syncMismatch => s.cnt.toNat
      | .overflow | .decodeFail | .decoded _ => 0
      | .syncMatch => s.cnt.toNat + 1) ∧
    (exec (.setupRx x) s = .next t → t.cnt = 0) ∧
    (exec (.stopRx x) s = .next t → t.cnt = 0) ∧
    (exec (.init x) s = .next t → t.cnt = s.cnt) ∧
    (exec (.receive x) s = .next t → t.cnt = s.cnt)

/-- The FRAME event (R173): an executed EDGE emits it exactly when it decodes a frame in push mode, with the new `flen`,
`fproto` and bytes; in both modes the frame stays in the buffer and a later RECEIVE returns it; no other command emits an
event. -/
def Obligations.FrameEventExactlyInPushMode : Prop :=
  (∀ (s t : State) (x : Word), s.initDone = true → exec (.edge x) s = .next t →
    (∀ p, s.edgeLabel x = .decoded p → t.flen ≠ 0 ∧ t.fproto = p.id ∧
      t.event = if s.pushEn = true
        then some ⟨t.flen, t.fproto, (List.range t.flen).map t.fb.read⟩ else none) ∧
    (∀ p a, s.edgeLabel x = .decoded p → ∃ u, exec (.receive a) t = .next u ∧ u.flen = 0 ∧
      u.rsp = some ⟨.ok, some ⟨t.flen, t.fproto, (List.range t.flen).map t.fb.read⟩⟩) ∧
    ((∀ p, s.edgeLabel x ≠ .decoded p) → t.event = none)) ∧
  (∀ (s t : State) (i : Instr), (∀ x, i ≠ .edge x) → exec i s = .next t → t.event = none)

/-- What the commands leave unchanged (10_state.md section 5). INIT and RECEIVE write no storage; SETUP_RX and STOP_RX
write no frame byte; EDGE writes at most the trace entry `edgeIndex` and the bytes of the frame it decodes. -/
def Obligations.CommandFrames : Prop :=
  ∀ (s t : State) (i : Instr), exec i s = .next t →
    t.cfg = s.cfg ∧ t.pending = s.pending ∧
    (∀ a, i = .init a → t.rxEn = s.rxEn ∧ t.pushEn = s.pushEn ∧ (∀ k, t.tr.read k = s.tr.read k) ∧ t.idx = s.idx ∧
      t.cnt = s.cnt ∧ t.lastTs = s.lastTs ∧ (∀ j, t.fb.read j = s.fb.read j) ∧ t.flen = s.flen ∧
      t.fproto = s.fproto ∧ t.faulted = s.faulted) ∧
    (∀ a, i = .setupRx a ∨ i = .stopRx a → t.initDone = s.initDone ∧ (∀ j, t.fb.read j = s.fb.read j) ∧
      t.flen = s.flen ∧ t.fproto = s.fproto) ∧
    (∀ a, i = .receive a → t.initDone = s.initDone ∧ t.rxEn = s.rxEn ∧ t.pushEn = s.pushEn ∧
      (∀ k, t.tr.read k = s.tr.read k) ∧ t.idx = s.idx ∧ t.cnt = s.cnt ∧ t.lastTs = s.lastTs ∧
      (∀ j, t.fb.read j = s.fb.read j) ∧ t.fproto = s.fproto) ∧
    (∀ x, i = .edge x → t.initDone = s.initDone ∧ t.rxEn = s.rxEn ∧ t.pushEn = s.pushEn ∧
      (s.initDone = false ∨ s.rxEn = false → (∀ k, t.tr.read k = s.tr.read k) ∧ t.idx = s.idx ∧ t.cnt = s.cnt ∧
        t.lastTs = s.lastTs) ∧
      (∀ k, k ≠ s.edgeIndex x → t.tr.read k = s.tr.read k) ∧
      (s.initDone = false ∨ (∀ p, s.edgeLabel x ≠ .decoded p) →
        (∀ j, t.fb.read j = s.fb.read j) ∧ t.flen = s.flen ∧ t.fproto = s.fproto) ∧
      (∀ j, t.flen ≤ j → t.fb.read j = s.fb.read j))

/-- Stale storage is not observable (10_state.md section 2): two states that differ only in trace entries at or past
`idx` and in frame bytes at or past `flen` answer every step alike, outputs included, and stay so. -/
def Obligations.StaleStorageIsNotObservable : Prop :=
  ∀ s s' t : State, s.Alike s' → step s = .next t → ∃ t', step s' = .next t' ∧ t.Alike t'

/-! ### The sync detector's tests -/

/-- The candidate test (R121): strictly longer than 5000. -/
def Obligations.CandidateTestIsStrict : Prop :=
  (∀ d : Word, isCandidate d = true ↔ 5000 < d.toNat) ∧ isCandidate 5000 = false ∧ isCandidate 5001 = true

/-- The match test (R122): `tr[0] - 200 < d < tr[0] + 200` on integers; a candidate can match only if `tr[0]` exceeds
4801. -/
def Obligations.MatchTestIsOpen : Prop :=
  ∀ (s : State) (d : Word),
    (s.isMatch d = true ↔
      ((s.tr.read 0).toNat : Int) - 200 < d.toNat ∧ (d.toNat : Int) < (s.tr.read 0).toNat + 200) ∧
    (d.toNat = (s.tr.read 0).toNat + 199 → s.isMatch d = true) ∧
    (d.toNat = (s.tr.read 0).toNat + 200 → s.isMatch d = false) ∧
    (isCandidate d = true → s.isMatch d = true → 4801 < (s.tr.read 0).toNat)

/-! ### The frame decoder -/

/-- The protocol table (R90). -/
def Obligations.ProtocolTable : Prop :=
  Proto.v1.entry = ⟨350, 1, 3, 3, 1, 1, 31⟩ ∧ Proto.v2.entry = ⟨650, 1, 2, 2, 1, 1, 10⟩ ∧
  Proto.v3.entry = ⟨100, 4, 11, 9, 6, 1, 71⟩

/-- The packed table words (R82) and the nominal SYNC low durations, all of them candidates (40_protocol_table.md
section 1). -/
def Obligations.PackedTableAndNominalSync : Prop :=
  Proto.v1.entry.pack = 0x578083060409F ∧ Proto.v2.entry.pack = 0xA28082040408A ∧
  Proto.v3.entry.pack = 0x19020B12180C7 ∧
  ∀ p : Proto, 5000 < p.entry.syncLo * p.entry.base

/-- The reference unit and the tolerance are floor divisions by the unit count of the SYNC low phase and by 2, and every
window centre lies below `tr[0]` (40_protocol_table.md section 1, 43_frame_decoder.md section 2). -/
def Obligations.ReferenceUnitAndTolerance : Prop :=
  ∀ (tr : Memory 32) (p : Proto),
    (p.entry.syncLo = 31 ∨ p.entry.syncLo = 10 ∨ p.entry.syncLo = 71) ∧
    refUnit tr p * p.entry.syncLo ≤ (tr.read 0).toNat ∧
    (tr.read 0).toNat < (refUnit tr p + 1) * p.entry.syncLo ∧
    2 * tolerance (refUnit tr p) ≤ refUnit tr p ∧ refUnit tr p ≤ 2 * tolerance (refUnit tr p) + 1 ∧
    ∀ u, u = p.entry.oneHi ∨ u = p.entry.oneLo ∨ u = p.entry.zeroHi ∨ u = p.entry.zeroLo → tr.read 0 ≠ 0 →
      refUnit tr p * u < (tr.read 0).toNat

/-- The window predicate (R144): open bounds on integers; empty when the unit is at most 1; the bounds are outside. -/
def Obligations.WindowsAreOpen : Prop :=
  ∀ (ref units : Nat) (v : Word),
    (inWindow ref v units = true ↔
      (ref : Int) * units - (ref / 2 : Nat) < v.toNat ∧ (v.toNat : Int) < ref * units + (ref / 2 : Nat)) ∧
    (ref ≤ 1 → inWindow ref v units = false) ∧
    (v.toNat = ref * units + ref / 2 ∨ v.toNat + ref / 2 = ref * units → inWindow ref v units = false) ∧
    (1 ≤ units → (0 : Int) ≤ (ref : Int) * units - (ref / 2 : Nat))

/-- Classification (R145): ONE and ZERO each need both halves in their windows, and no pair is in both. -/
def Obligations.SymbolsAreUnambiguous : Prop :=
  ∀ (p : Proto) (ref : Nat) (h l : Word),
    (classify p ref h l = some true ↔
      inWindow ref h p.entry.oneHi = true ∧ inWindow ref l p.entry.oneLo = true) ∧
    (classify p ref h l = some false ↔
      inWindow ref h p.entry.zeroHi = true ∧ inWindow ref l p.entry.zeroLo = true) ∧
    ¬ (inWindow ref h p.entry.oneHi = true ∧ inWindow ref h p.entry.zeroHi = true)

/-- The walk of `Decode` (43_frame_decoder.md section 3): some number `b` of bits is taken from whole valid pairs that
are symbols; the scan stops at the end of data, at a pair that is no symbol or with the buffer full; bit `k` is in byte
`k div 8` at position `7 - k mod 8` and the rest of the last byte is 0; the result is by `consumed = 2 b`. -/
def Obligations.DecodeWalk : Prop :=
  ∀ (maxBytes : Nat) (tr : Memory 32) (p : Proto) (n : Nat), ∃ (b : Nat) (out : List Byte),
    (∀ k, k < b → 2 * k + 2 < n ∧
      classify p (refUnit tr p) (tr.read (2 * k + 1)) (tr.read (2 * k + 2)) =
        some ((out.getD (k / 8) 0).getLsbD (7 - k % 8))) ∧
    b ≤ 8 * maxBytes ∧
    (n ≤ 2 * b + 2 ∨ b = 8 * maxBytes ∨
      classify p (refUnit tr p) (tr.read (2 * b + 1)) (tr.read (2 * b + 2)) = none) ∧
    (∀ k, b ≤ k → (out.getD (k / 8) 0).getLsbD (7 - k % 8) = false) ∧
    out.length = (b + 7) / 8 ∧
    decodeFrame maxBytes tr p n = if 2 * b < 15 then .reject else .accept out ((2 * b + 14) / 16)

/-- Acceptance (R150): fewer than eight bits are rejected, eight or more accepted; so no trace of 16 or fewer valid
entries is accepted, and one of 17 can be. -/
def Obligations.ShortTracesAreRejected : Prop :=
  (∀ (b : Nat) (out : List Byte), acceptance b out = .reject ↔ b ≤ 7) ∧
  (∀ (maxBytes : Nat) (tr : Memory 32) (p : Proto) (n : Nat), n ≤ 16 → decodeFrame maxBytes tr p n = .reject) ∧
  ∀ p, ∃ tr out, decodeFrame 16 tr p 17 = .accept out 1

/-- The byte count (R151): `nbytes = (2 b + 14) div 16 = ceil(b / 8)`, the length of `out`, at most `MAXBYTES`. -/
def Obligations.ByteCountRoundsUp : Prop :=
  (∀ (b : Nat) (out : List Byte), 8 ≤ b → acceptance b out = .accept out ((2 * b + 14) / 16) ∧
    ∀ m r, b = 8 * m + r → r ≤ 7 → (2 * b + 14) / 16 = if r = 0 then m else m + 1) ∧
  ∀ (maxBytes : Nat) (tr : Memory 32) (p : Proto) (n k : Nat) (out : List Byte),
    decodeFrame maxBytes tr p n = .accept out k → k = out.length ∧ 1 ≤ k ∧ k ≤ maxBytes

/-- `Decode` depends on the valid entries only (43_frame_decoder.md section 2). -/
def Obligations.DecodeReadsValidEntriesOnly : Prop :=
  ∀ (maxBytes : Nat) (tr tr' : Memory 32) (p : Proto) (n : Nat), (∀ i, i < n → tr.read i = tr'.read i) →
    decodeFrame maxBytes tr p n = decodeFrame maxBytes tr' p n

/-- The sweep (R140): V1, then V2, then V3; the first acceptance is published and no later protocol matters; if all
three reject no register is written. The premise on `n` holds in every state that meets I1 (R51). -/
def Obligations.SweepTakesFirstAcceptance : Prop :=
  ∀ (s : State) (n : Nat), n ≤ s.cfg.traceCap →
    (∀ out k, decodeFrame s.cfg.maxBytes s.tr .v1 n = .accept out k →
      s.sweep n = .ok (s.publish ⟨.v1, out, k⟩)) ∧
    (∀ out k, decodeFrame s.cfg.maxBytes s.tr .v1 n = .reject →
      decodeFrame s.cfg.maxBytes s.tr .v2 n = .accept out k → s.sweep n = .ok (s.publish ⟨.v2, out, k⟩)) ∧
    (∀ out k, decodeFrame s.cfg.maxBytes s.tr .v1 n = .reject →
      decodeFrame s.cfg.maxBytes s.tr .v2 n = .reject →
      decodeFrame s.cfg.maxBytes s.tr .v3 n = .accept out k → s.sweep n = .ok (s.publish ⟨.v3, out, k⟩)) ∧
    ((∀ p, decodeFrame s.cfg.maxBytes s.tr p n = .reject) → s.sweep n = .ok s)

/-- `Publish` (R152): the bytes, `fproto`, `flen`, and FRAME in push mode; later bytes and every other register are as
before. -/
def Obligations.PublishWritesFrame : Prop :=
  ∀ (s : State) (a : Accepted), a.out.length = a.nbytes →
    (∀ j, j < a.nbytes → some ((s.publish a).fb.read j) = a.out[j]?) ∧
    (∀ j, a.nbytes ≤ j → (s.publish a).fb.read j = s.fb.read j) ∧
    ∃ fb', s.publish a = { s with
      fb := fb', fproto := a.proto.id, flen := a.nbytes,
      event := if s.pushEn = true then some ⟨a.nbytes, a.proto.id, a.out⟩ else s.event }

/-- Misidentification (R158): the nominal trace of a V3 transmission whose first byte is 0 is published as V2 with its
leading run of 0 bits, rounded up to whole bytes; with any 1 bit in the first byte it is published as V3. -/
def Obligations.ZeroByteV3FrameReadsAsV2 : Prop :=
  ∀ (maxBytes : Nat) (tr : Memory 32) (v : Byte) (bytes : List Byte), (v :: bytes).length ≤ maxBytes →
    tr.read 0 = 7100 →
    (∀ i, i < 16 * (v :: bytes).length → some (tr.read (i + 1)) = (txDurations .v3 (v :: bytes) 1)[i]?) →
    (v = 0 → ∀ z, z = ((frameBits (v :: bytes)).takeWhile fun b => !b).length →
      sweepResult maxBytes tr (16 * (v :: bytes).length + 1) =
        some ⟨.v2, List.replicate ((z + 7) / 8) 0, (z + 7) / 8⟩) ∧
    (v ≠ 0 → sweepResult maxBytes tr (16 * (v :: bytes).length + 1) =
      some ⟨.v3, v :: bytes, (v :: bytes).length⟩)

/-- Round trip (R159): for V1 and any byte string of length L with 1 ≤ L ≤ min(MAXBYTES, (TRACE_CAP - 2) div 16), the
trace its transmission leaves between two SYNC low phases decodes to exactly those bytes, length L, protocol V1. -/
def Obligations.RoundTripV1 : Prop :=
  ∀ (c : Config) (tr : Memory 32) (bytes : List Byte),
    1 ≤ bytes.length → bytes.length ≤ min c.maxBytes ((c.traceCap - 2) / 16) →
    tr.read 0 = 10850 →
    (∀ i, i < 16 * bytes.length → some (tr.read (i + 1)) = (txDurations .v1 bytes 1)[i]?) →
      sweepResult c.maxBytes tr (16 * bytes.length + 1) = some ⟨.v1, bytes, bytes.length⟩

/-- A V1 frame whose data durations are each off by at most 174 µs is delivered: the closing pulse that makes the counter
reach `RFCNSYNC` publishes the bytes, and the next RECEIVE returns them (43_frame_decoder.md section 6,
44_delivery_sink.md section 2; 95_test_vectors.md V-L1g). The premises on the parameters and on `cnt` hold in every state
that meets the invariant. -/
def Obligations.TransmittedFrameIsDelivered : Prop :=
  ∀ (s : State) (x d a : Word) (bytes : List Byte), EdgeMeasures s x d →
    1 ≤ bytes.length → bytes.length ≤ s.cfg.maxBytes → s.idx = 16 * bytes.length + 2 → s.idx ≤ s.cfg.traceCap →
    s.tr.read 0 = 10850 → 10650 < d.toNat → d.toNat < 11050 → s.cnt.toNat + 1 = s.cfg.rfcnsync →
    (∀ i v, (txDurations .v1 bytes 1)[i]? = some v → i < 16 * bytes.length →
      (((s.tr.read (i + 1)).toNat : Int) - v.toNat).natAbs ≤ 174) →
      ∃ t u, exec (.edge x) s = .next t ∧ exec (.receive a) t = .next u ∧
        t.event = (if s.pushEn = true then some ⟨bytes.length, 1, bytes⟩ else none) ∧
        u.rsp = some ⟨.ok, some ⟨bytes.length, 1, bytes⟩⟩ ∧ u.flen = 0

/-! ### Reference functions, pseudo-commands, channels -/

/-- The transmit stream of L bytes repeated r times has r (16 L + 2) pulses, high and low in turn, and each repetition
ends with the SYNC symbol (45_tx_reference.md). -/
def Obligations.TxStreamShape : Prop :=
  ∀ (p : Proto) (bytes : List Byte) (r : Nat),
    (txStream p bytes r).length = r * (16 * bytes.length + 2) ∧
    (∀ (i : Nat) (h : i < (txStream p bytes r).length),
      ((txStream p bytes r)[i]).1 = if i % 2 = 0 then Level.high else Level.low) ∧
    (txStream p bytes (r + 1)).getLast? = some (.low, p.entry.syncLo * p.entry.base)

/-- `EDGE_D d` makes the block measure exactly `d` (30_encoding.md section 5). -/
def Obligations.EdgeDeltaMeasuresExactly : Prop :=
  ∀ (s : State) (d : Word), s.edgeDelta d = .edge (s.lastTs + d) ∧ s.duration (s.lastTs + d) = d

/-- Channels share nothing writable (20_memory.md section 8, 60_exceptions.md section 6): a step of one leaves every
other as it was, and does not depend on them. -/
def Obligations.ChannelsAreIndependent : Prop :=
  ∀ (cs ds es : Channels) (k : Nat), ds[k]? = cs[k]? → stepChannel cs k = .next es →
    (∀ j, j ≠ k → es[j]? = cs[j]?) ∧ ∃ fs, stepChannel ds k = .next fs ∧ fs[k]? = es[k]?
end

