-- ==== Sys2Proof/Laws/Decode.lean ====
section
/-! SUPPORT. The two fields of a command word, read back from a word that was made of them. -/

namespace Sys2Proof

/-- The bits of `op ‖ arg`. -/
theorem getLsbD_makeWord (op : Byte) (arg : Word) (i : Nat) :
    (makeWord op arg).getLsbD i = if i < 32 then arg.getLsbD i else op.getLsbD (i - 32) :=
  BitVec.getLsbD_append (x := op) (y := arg)

@[simp] theorem opField_makeWord (op : Byte) (arg : Word) : opField (makeWord op arg) = op := by
  refine BitVec.eq_of_getLsbD_eq fun i hi => ?_
  rw [opField, BitVec.getLsbD_extractLsb', getLsbD_makeWord]
  simp [hi]

@[simp] theorem argField_makeWord (op : Byte) (arg : Word) : argField (makeWord op arg) = arg := by
  refine BitVec.eq_of_getLsbD_eq fun i hi => ?_
  rw [argField, BitVec.getLsbD_extractLsb', getLsbD_makeWord]
  simp [hi]

/-- A word is made of its two fields. -/
theorem makeWord_fields (w : CmdWord) : makeWord (opField w) (argField w) = w := by
  refine BitVec.eq_of_getLsbD_eq fun i hi => ?_
  rw [getLsbD_makeWord, opField, argField, BitVec.getLsbD_extractLsb', BitVec.getLsbD_extractLsb']
  split
  · next h => simp [h]
  · next h =>
    have h8 : i - 32 < 8 := by omega
    have e : 32 + (i - 32) = i := by omega
    simp only [h8, e, decide_true, Bool.true_and]

/-- The mask of the opcode map keeps the opcode and drops the argument. -/
theorem makeWord_and_mask (op : Byte) (arg : Word) : makeWord op arg &&& opcodeMask = makeWord op 0 := by
  have hm : opcodeMask = makeWord 0xFF 0 := by decide
  have hff : ∀ j, j < 8 → (0xFF : Byte).getLsbD j = true := by decide
  rw [hm]
  refine BitVec.eq_of_getLsbD_eq fun i hi => ?_
  rw [BitVec.getLsbD_and, getLsbD_makeWord, getLsbD_makeWord, getLsbD_makeWord]
  split
  · simp
  · rw [hff _ (by omega), Bool.and_true]

end Sys2Proof
end

