-- ==== Sys2Proof/Laws/FrameDecoder.lean ====
section
/-! SUPPORT. What the frame decoder answers: the packing of one bit, the scan, the result of `Decode` and of the sweep,
each said once. -/

namespace Sys2Proof.Machine

/-! ### Windows and symbols -/

theorem inWindow_iff (ref : Nat) (v : Word) (units : Nat) :
    inWindow ref v units = true ↔ ref * units < v.toNat + ref / 2 ∧ v.toNat < ref * units + ref / 2 := by
  unfold inWindow
  rw [Bool.and_eq_true, decide_eq_true_iff, decide_eq_true_iff, ← Int.natCast_mul]
  unfold tolerance
  omega

/-- No duration lies in the windows of two different unit counts (R145). -/
theorem inWindow_unique {ref : Nat} {v : Word} {a b : Nat} (ha : inWindow ref v a = true)
    (hb : inWindow ref v b = true) : a = b := by
  rw [inWindow_iff] at ha hb
  rcases Nat.lt_trichotomy a b with h | h | h
  · have : ref * a + ref ≤ ref * b := by
      rw [← Nat.mul_succ]; exact Nat.mul_le_mul_left ref h
    omega
  · exact h
  · have : ref * b + ref ≤ ref * a := by
      rw [← Nat.mul_succ]; exact Nat.mul_le_mul_left ref h
    omega

theorem Proto.oneHi_ne_zeroHi (p : Proto) : p.entry.oneHi ≠ p.entry.zeroHi := by cases p <;> decide

/-- A pair is bit 1 exactly when both halves are in the ONE windows. -/
theorem classify_eq_true_iff (p : Proto) (ref : Nat) (h l : Word) :
    classify p ref h l = some true ↔
      inWindow ref h p.entry.oneHi = true ∧ inWindow ref l p.entry.oneLo = true := by
  unfold classify
  split
  · next hc => simpa using hc
  · next hc => split <;> simp_all

/-- A pair is bit 0 exactly when both halves are in the ZERO windows: the ONE and ZERO windows never overlap. -/
theorem classify_eq_false_iff (p : Proto) (ref : Nat) (h l : Word) :
    classify p ref h l = some false ↔
      inWindow ref h p.entry.zeroHi = true ∧ inWindow ref l p.entry.zeroLo = true := by
  unfold classify
  split
  · next hc =>
    rw [Bool.and_eq_true] at hc
    simp only [Option.some.injEq, Bool.true_eq_false, false_iff, not_and]
    exact fun hz => absurd (inWindow_unique hc.1 hz) p.oneHi_ne_zeroHi
  · next hc => split <;> simp_all

/-! ### Packing one bit -/

theorem frameBit_nil (k : Nat) : frameBit [] k = false := by simp [frameBit]

theorem frameBit_append_zero (out : List Byte) (k : Nat) : frameBit (out ++ [0]) k = frameBit out k := by
  unfold frameBit
  rcases Nat.lt_trichotomy (k / 8) out.length with h | h | h
  · rw [List.getD_append _ _ _ _ h]
  · simp [h]
  · rw [List.getD_eq_default (out ++ [0]) _ (by simpa using h), List.getD_eq_default out _ (Nat.le_of_lt h)]

theorem frameBit_modify (out : List Byte) (b k : Nat) (v : Bool) (h : b / 8 < out.length) :
    frameBit (out.modify (b / 8) fun x => x ||| ((BitVec.ofBool v).setWidth 8 <<< (7 - b % 8))) k =
      if k = b then (frameBit out k || v) else frameBit out k := by
  unfold frameBit
  by_cases hk : k / 8 = b / 8
  · have hl : k / 8 < out.length := hk ▸ h
    simp only [List.getD_eq_getElem?_getD, List.getElem?_modify, hk, h, List.getElem?_eq_getElem, if_true,
      Option.map_eq_map, Option.map_some, Option.getD_some, BitVec.getLsbD_or, BitVec.getLsbD_shiftLeft,
      BitVec.getLsbD_setWidth, BitVec.getLsbD_ofBool]
    by_cases hkb : k = b
    · subst hkb
      have : 7 - k % 8 < 8 := by omega
      simp [this]
    · rw [if_neg hkb]
      have hmod : k % 8 ≠ b % 8 := by omega
      have : k % 8 < 8 := Nat.mod_lt _ (by decide)
      have : b % 8 < 8 := Nat.mod_lt _ (by decide)
      by_cases hlt : 7 - k % 8 < 7 - b % 8
      · simp [hlt]
      · have : ¬ (7 - k % 8 - (7 - b % 8) = 0) := by omega
        simp [this]
  · have hkb : k ≠ b := fun e => hk (by rw [e])
    rw [if_neg hkb]
    simp [List.getD_eq_getElem?_getD, Ne.symm hk]

/-- Packing bit number `b` writes that bit and no other. -/
theorem frameBit_putBit (out : List Byte) (b k : Nat) (v : Bool) (hl : out.length = (b + 7) / 8)
    (hz : frameBit out b = false) :
    frameBit (putBit out b v) k = if k = b then v else frameBit out k := by
  unfold putBit
  by_cases hb : b % 8 = 0
  · simp only [hb, if_true]
    have := frameBit_modify (out ++ [0]) b k v (by simp; omega)
    rw [hb] at this
    rw [this, frameBit_append_zero]
    split
    · next h => subst h; simp [hz]
    · rfl
  · simp only [hb, if_false]
    rw [frameBit_modify out b k v (by omega)]
    split
    · next h => subst h; simp [hz]
    · rfl

theorem length_putBit (out : List Byte) (b : Nat) (v : Bool) (hl : out.length = (b + 7) / 8) :
    (putBit out b v).length = (b + 1 + 7) / 8 := by
  unfold putBit
  by_cases hb : b % 8 = 0 <;> simp [hb] <;> omega

/-! ### The scan -/

/-- The scan's answer `r` when it starts at bit `b` with `out` packed: what `Decode` may rely on. -/
structure ScanResult (maxBytes : Nat) (tr : Memory 32) (p : Proto) (n b : Nat) (out : List Byte)
    (r : Nat × List Byte) : Prop where
  le : b ≤ r.1
  /-- Every bit counted came from a whole pair of valid entries that is a symbol, within the byte buffer. -/
  taken : ∀ k, b ≤ k → k < r.1 → 2 * k + 2 < n ∧ k < 8 * maxBytes ∧ symbolAt tr p k = some (frameBit r.2 k)
  /-- The stop is S1, S3 or S2 of R148. -/
  stop : n ≤ 2 * r.1 + 2 ∨ 8 * maxBytes ≤ r.1 ∨ symbolAt tr p r.1 = none
  len : r.2.length = (r.1 + 7) / 8
  /-- Positions that received no bit are 0 (R147). -/
  pad : ∀ k, r.1 ≤ k → frameBit r.2 k = false
  kept : ∀ k, k < b → frameBit r.2 k = frameBit out k

theorem scan_result (maxBytes : Nat) (tr : Memory 32) (p : Proto) (n : Nat) (fuel b : Nat) (out : List Byte)
    (hf : n ≤ 2 * (b + fuel) + 2) (hl : out.length = (b + 7) / 8) (hz : ∀ k, b ≤ k → frameBit out k = false) :
    ScanResult maxBytes tr p n b out (scan maxBytes tr p (refUnit tr p) n fuel b out) := by
  induction fuel generalizing b out with
  | zero => exact ⟨Nat.le_refl b, fun k h h' => absurd h' (Nat.not_lt.2 h), .inl hf, hl, hz, fun _ _ => rfl⟩
  | succ fuel ih =>
    unfold scan
    by_cases hg : 2 * b + 1 + 1 < n ∧ b < 8 * maxBytes
    · simp only [hg, and_self, if_true]
      cases hc : classify p (refUnit tr p) (tr.read (2 * b + 1)) (tr.read (2 * b + 1 + 1)) with
      | none => exact ⟨Nat.le_refl b, fun k h h' => absurd h' (Nat.not_lt.2 h), .inr (.inr hc), hl, hz, fun _ _ => rfl⟩
      | some v =>
        dsimp only
        have hb := hz b (Nat.le_refl b)
        obtain ⟨h1, h2, h3, h4, h5, h6⟩ := ih (b + 1) (putBit out b v) (by omega) (length_putBit out b v hl)
          (fun k hk => by rw [frameBit_putBit out b k v hl hb, if_neg (by omega)]; exact hz k (by omega))
        refine ⟨by omega, fun k hk hk' => ?_, h3, h4, h5, fun k hk => ?_⟩
        · by_cases hkb : k = b
          · subst hkb
            refine ⟨hg.1, hg.2, ?_⟩
            rw [h6 k (by omega), frameBit_putBit out k k v hl hb, if_pos rfl]
            exact hc
          · exact h2 k (by omega) hk'
        · rw [h6 k (by omega), frameBit_putBit out b k v hl hb, if_neg (by omega)]
    · simp only [hg, if_false]
      refine ⟨Nat.le_refl b, fun k h h' => absurd h' (Nat.not_lt.2 h), ?_, hl, hz, fun _ _ => rfl⟩
      by_cases h : 2 * b + 1 + 1 < n
      · exact .inr (.inl (by omega))
      · exact .inl (by omega)

/-! ### Decode -/

/-- What an accepted decode says (R146 to R151): `b` bits were decoded. -/
structure DecodedBits (maxBytes : Nat) (tr : Memory 32) (p : Proto) (n b : Nat) (out : List Byte) : Prop where
  taken : ∀ k, k < b → 2 * k + 2 < n ∧ k < 8 * maxBytes ∧ symbolAt tr p k = some (frameBit out k)
  stop : n ≤ 2 * b + 2 ∨ 8 * maxBytes ≤ b ∨ symbolAt tr p b = none
  len : out.length = (b + 7) / 8
  pad : ∀ k, b ≤ k → frameBit out k = false

theorem acceptance_eq (b : Nat) (out : List Byte) :
    acceptance b out = if b < 8 then .reject else .accept out ((b + 7) / 8) := by
  unfold acceptance pairEntries minConsumed byteEntries
  by_cases h : b < 8
  · rw [if_pos h, if_pos (by omega)]
  · rw [if_neg h, if_neg (by omega)]
    congr 1
    omega

/-- One spec for `Decode`: some number `b` of bits is decoded; under 8 it rejects, else it accepts `ceil(b / 8)`
bytes. -/
theorem decodeFrame_spec (maxBytes : Nat) (tr : Memory 32) (p : Proto) (n : Nat) :
    ∃ b out, DecodedBits maxBytes tr p n b out ∧
      decodeFrame maxBytes tr p n = if b < 8 then .reject else .accept out ((b + 7) / 8) := by
  obtain ⟨_, h2, h3, h4, h5, _⟩ := scan_result maxBytes tr p n n 0 [] (by omega) rfl (fun k _ => frameBit_nil k)
  exact ⟨_, _, ⟨fun k hk => h2 k (Nat.zero_le k) hk, h3, h4, h5⟩, acceptance_eq _ _⟩

/-- The number of decoded bits is determined by the trace. -/
theorem DecodedBits.unique {maxBytes : Nat} {tr : Memory 32} {p : Proto} {n b b' : Nat} {out out' : List Byte}
    (h : DecodedBits maxBytes tr p n b out) (h' : DecodedBits maxBytes tr p n b' out') : b = b' := by
  have aux : ∀ {b b' : Nat} {out out' : List Byte}, DecodedBits maxBytes tr p n b out →
      DecodedBits maxBytes tr p n b' out' → ¬ b < b' := by
    intro b b' out out' h h' hlt
    obtain ⟨t1, t2, t3⟩ := h'.taken b hlt
    rcases h.stop with s | s | s
    · omega
    · omega
    · rw [s] at t3; exact absurd t3 (by simp)
  exact Nat.le_antisymm (Nat.not_lt.1 (aux h' h)) (Nat.not_lt.1 (aux h h'))

theorem list_eq_of_frameBit {x y : List Byte} (hl : x.length = y.length) (h : ∀ k, frameBit x k = frameBit y k) :
    x = y := by
  refine List.ext_getElem hl fun j h1 h2 => BitVec.eq_of_getLsbD_eq fun i hi => ?_
  have := h (8 * j + (7 - i))
  have e1 : (8 * j + (7 - i)) / 8 = j := by omega
  have e2 : 7 - (8 * j + (7 - i)) % 8 = i := by omega
  simpa only [frameBit, e1, e2, List.getD_eq_getElem _ _ h1, List.getD_eq_getElem _ _ h2] using this

/-- So are the bytes. -/
theorem DecodedBits.unique_out {maxBytes : Nat} {tr : Memory 32} {p : Proto} {n b : Nat} {out out' : List Byte}
    (h : DecodedBits maxBytes tr p n b out) (h' : DecodedBits maxBytes tr p n b out') : out = out' := by
  refine list_eq_of_frameBit (h.len.trans h'.len.symm) fun k => ?_
  by_cases hk : k < b
  · have e := (h.taken k hk).2.2
    rw [(h'.taken k hk).2.2] at e
    exact (Option.some.inj e).symm
  · rw [h.pad k (Nat.not_lt.1 hk), h'.pad k (Nat.not_lt.1 hk)]

/-- To know what `Decode` answers it is enough to exhibit the decoded bits. -/
theorem DecodedBits.decode {maxBytes : Nat} {tr : Memory 32} {p : Proto} {n b : Nat} {out : List Byte}
    (h : DecodedBits maxBytes tr p n b out) :
    decodeFrame maxBytes tr p n = if b < 8 then .reject else .accept out ((b + 7) / 8) := by
  obtain ⟨b', out', h', e⟩ := decodeFrame_spec maxBytes tr p n
  obtain rfl := h.unique h'
  obtain rfl := h.unique_out h'
  exact e

/-- What an acceptance says. -/
theorem decodeFrame_accept {maxBytes : Nat} {tr : Memory 32} {p : Proto} {n nbytes : Nat} {out : List Byte}
    (h : decodeFrame maxBytes tr p n = .accept out nbytes) :
    ∃ b, DecodedBits maxBytes tr p n b out ∧ 8 ≤ b ∧ nbytes = (b + 7) / 8 ∧ out.length = nbytes := by
  obtain ⟨b, out', hd, e⟩ := decodeFrame_spec maxBytes tr p n
  rw [e] at h
  split at h
  · cases h
  · next hb =>
    cases h
    exact ⟨b, hd, Nat.not_lt.1 hb, rfl, hd.len⟩

/-- An accepted frame has between 1 and `MAXBYTES` bytes. -/
theorem decodeFrame_bounds {maxBytes : Nat} {tr : Memory 32} {p : Proto} {n nbytes : Nat} {out : List Byte}
    (h : decodeFrame maxBytes tr p n = .accept out nbytes) : 1 ≤ nbytes ∧ nbytes ≤ maxBytes := by
  obtain ⟨b, hd, hb, rfl, _⟩ := decodeFrame_accept h
  have := (hd.taken (b - 1) (by omega)).2.1
  omega

/-- The decoder reads the valid entries only (R141). -/
theorem scan_congr (maxBytes : Nat) (tr tr' : Memory 32) (p : Proto) (ref n fuel b : Nat) (out : List Byte)
    (h : ∀ i, i < n → tr.read i = tr'.read i) :
    scan maxBytes tr p ref n fuel b out = scan maxBytes tr' p ref n fuel b out := by
  induction fuel generalizing b out with
  | zero => rfl
  | succ fuel ih =>
    unfold scan
    by_cases hg : 2 * b + 1 + 1 < n ∧ b < 8 * maxBytes
    · simp only [hg, and_self, if_true, h (2 * b + 1) (by omega), h (2 * b + 1 + 1) hg.1]
      split <;> simp [ih]
    · simp only [hg, if_false]

/-! ### The sweep -/

/-- What the sweep's answer says: the first protocol that accepts, those before it having rejected. -/
theorem sweepResult_eq (maxBytes : Nat) (tr : Memory 32) (n : Nat) :
    sweepResult maxBytes tr n =
      match decodeFrame maxBytes tr .v1 n, decodeFrame maxBytes tr .v2 n, decodeFrame maxBytes tr .v3 n with
      | .accept out k, _, _ => some ⟨.v1, out, k⟩
      | .reject, .accept out k, _ => some ⟨.v2, out, k⟩
      | .reject, .reject, .accept out k => some ⟨.v3, out, k⟩
      | .reject, .reject, .reject => none := by
  unfold sweepResult sweepOrder
  simp only [firstAccepted]
  split <;> split <;> try split
  all_goals simp_all

/-- An accepted frame is its protocol's decode. -/
theorem sweepResult_some {maxBytes : Nat} {tr : Memory 32} {n : Nat} {a : Accepted}
    (h : sweepResult maxBytes tr n = some a) : decodeFrame maxBytes tr a.proto n = .accept a.out a.nbytes := by
  rw [sweepResult_eq] at h
  split at h <;> cases h <;> assumption

theorem sweepResult_none_iff (maxBytes : Nat) (tr : Memory 32) (n : Nat) :
    sweepResult maxBytes tr n = none ↔ ∀ p, decodeFrame maxBytes tr p n = .reject := by
  rw [sweepResult_eq]
  constructor
  · intro h p
    split at h <;> cases h
    cases p <;> assumption
  · intro h
    simp [h]

/-- The bounds of an accepted frame, and its bytes are exactly `nbytes` long. -/
theorem sweepResult_bounds {maxBytes : Nat} {tr : Memory 32} {n : Nat} {a : Accepted}
    (h : sweepResult maxBytes tr n = some a) :
    1 ≤ a.nbytes ∧ a.nbytes ≤ maxBytes ∧ a.out.length = a.nbytes := by
  have hd := sweepResult_some h
  obtain ⟨b, _, _, _, hl⟩ := decodeFrame_accept hd
  exact ⟨(decodeFrame_bounds hd).1, (decodeFrame_bounds hd).2, hl⟩

theorem Accepted.take_out {maxBytes : Nat} {tr : Memory 32} {n : Nat} {a : Accepted}
    (h : sweepResult maxBytes tr n = some a) : a.out.take a.nbytes = a.out := by
  rw [← (sweepResult_bounds h).2.2, List.take_length]

theorem Proto.id_ne_zero (p : Proto) : p.id = 1 ∨ p.id = 2 ∨ p.id = 3 := by cases p <;> decide

end Sys2Proof.Machine
end

