-- ==== Sys2Proof/Laws/State.lean ====
section
/-! SUPPORT. One lemma for each field of State and each named update of it, so that no proof unfolds a record update. -/

namespace Sys2Proof.Machine

variable (s : State)

/-! #### setInit -/

@[simp] theorem State.setInit_cfg : (s.setInit).cfg = s.cfg := rfl
@[simp] theorem State.setInit_initDone : (s.setInit).initDone = true := rfl
@[simp] theorem State.setInit_rxEn : (s.setInit).rxEn = s.rxEn := rfl
@[simp] theorem State.setInit_pushEn : (s.setInit).pushEn = s.pushEn := rfl
@[simp] theorem State.setInit_tr : (s.setInit).tr = s.tr := rfl
@[simp] theorem State.setInit_idx : (s.setInit).idx = s.idx := rfl
@[simp] theorem State.setInit_cnt : (s.setInit).cnt = s.cnt := rfl
@[simp] theorem State.setInit_lastTs : (s.setInit).lastTs = s.lastTs := rfl
@[simp] theorem State.setInit_fb : (s.setInit).fb = s.fb := rfl
@[simp] theorem State.setInit_flen : (s.setInit).flen = s.flen := rfl
@[simp] theorem State.setInit_fproto : (s.setInit).fproto = s.fproto := rfl
@[simp] theorem State.setInit_rsp : (s.setInit).rsp = s.rsp := rfl
@[simp] theorem State.setInit_event : (s.setInit).event = s.event := rfl
@[simp] theorem State.setInit_faulted : (s.setInit).faulted = s.faulted := rfl
@[simp] theorem State.setInit_pending : (s.setInit).pending = s.pending := rfl

/-! #### setReception -/

@[simp] theorem State.setReception_cfg (en push : Bool) : (s.setReception en push).cfg = s.cfg := rfl
@[simp] theorem State.setReception_initDone (en push : Bool) : (s.setReception en push).initDone = s.initDone := rfl
@[simp] theorem State.setReception_rxEn (en push : Bool) : (s.setReception en push).rxEn = en := rfl
@[simp] theorem State.setReception_pushEn (en push : Bool) : (s.setReception en push).pushEn = push := rfl
@[simp] theorem State.setReception_tr (en push : Bool) : (s.setReception en push).tr = s.tr := rfl
@[simp] theorem State.setReception_idx (en push : Bool) : (s.setReception en push).idx = s.idx := rfl
@[simp] theorem State.setReception_cnt (en push : Bool) : (s.setReception en push).cnt = s.cnt := rfl
@[simp] theorem State.setReception_lastTs (en push : Bool) : (s.setReception en push).lastTs = s.lastTs := rfl
@[simp] theorem State.setReception_fb (en push : Bool) : (s.setReception en push).fb = s.fb := rfl
@[simp] theorem State.setReception_flen (en push : Bool) : (s.setReception en push).flen = s.flen := rfl
@[simp] theorem State.setReception_fproto (en push : Bool) : (s.setReception en push).fproto = s.fproto := rfl
@[simp] theorem State.setReception_rsp (en push : Bool) : (s.setReception en push).rsp = s.rsp := rfl
@[simp] theorem State.setReception_event (en push : Bool) : (s.setReception en push).event = s.event := rfl
@[simp] theorem State.setReception_faulted (en push : Bool) : (s.setReception en push).faulted = s.faulted := rfl
@[simp] theorem State.setReception_pending (en push : Bool) : (s.setReception en push).pending = s.pending := rfl

/-! #### clearTrace -/

@[simp] theorem State.clearTrace_cfg : (s.clearTrace).cfg = s.cfg := rfl
@[simp] theorem State.clearTrace_initDone : (s.clearTrace).initDone = s.initDone := rfl
@[simp] theorem State.clearTrace_rxEn : (s.clearTrace).rxEn = s.rxEn := rfl
@[simp] theorem State.clearTrace_pushEn : (s.clearTrace).pushEn = s.pushEn := rfl
@[simp] theorem State.clearTrace_tr : (s.clearTrace).tr = [] := rfl
@[simp] theorem State.clearTrace_idx : (s.clearTrace).idx = 0 := rfl
@[simp] theorem State.clearTrace_cnt : (s.clearTrace).cnt = 0 := rfl
@[simp] theorem State.clearTrace_lastTs : (s.clearTrace).lastTs = 0 := rfl
@[simp] theorem State.clearTrace_fb : (s.clearTrace).fb = s.fb := rfl
@[simp] theorem State.clearTrace_flen : (s.clearTrace).flen = s.flen := rfl
@[simp] theorem State.clearTrace_fproto : (s.clearTrace).fproto = s.fproto := rfl
@[simp] theorem State.clearTrace_rsp : (s.clearTrace).rsp = s.rsp := rfl
@[simp] theorem State.clearTrace_event : (s.clearTrace).event = s.event := rfl
@[simp] theorem State.clearTrace_faulted : (s.clearTrace).faulted = s.faulted := rfl
@[simp] theorem State.clearTrace_pending : (s.clearTrace).pending = s.pending := rfl

/-! #### restart -/

@[simp] theorem State.restart_cfg : (s.restart).cfg = s.cfg := rfl
@[simp] theorem State.restart_initDone : (s.restart).initDone = s.initDone := rfl
@[simp] theorem State.restart_rxEn : (s.restart).rxEn = s.rxEn := rfl
@[simp] theorem State.restart_pushEn : (s.restart).pushEn = s.pushEn := rfl
@[simp] theorem State.restart_tr : (s.restart).tr = s.tr := rfl
@[simp] theorem State.restart_idx : (s.restart).idx = 0 := rfl
@[simp] theorem State.restart_cnt : (s.restart).cnt = s.cnt := rfl
@[simp] theorem State.restart_lastTs : (s.restart).lastTs = s.lastTs := rfl
@[simp] theorem State.restart_fb : (s.restart).fb = s.fb := rfl
@[simp] theorem State.restart_flen : (s.restart).flen = s.flen := rfl
@[simp] theorem State.restart_fproto : (s.restart).fproto = s.fproto := rfl
@[simp] theorem State.restart_rsp : (s.restart).rsp = s.rsp := rfl
@[simp] theorem State.restart_event : (s.restart).event = s.event := rfl
@[simp] theorem State.restart_faulted : (s.restart).faulted = s.faulted := rfl
@[simp] theorem State.restart_pending : (s.restart).pending = s.pending := rfl

/-! #### setCnt -/

@[simp] theorem State.setCnt_cfg (c : Nat) : (s.setCnt c).cfg = s.cfg := rfl
@[simp] theorem State.setCnt_initDone (c : Nat) : (s.setCnt c).initDone = s.initDone := rfl
@[simp] theorem State.setCnt_rxEn (c : Nat) : (s.setCnt c).rxEn = s.rxEn := rfl
@[simp] theorem State.setCnt_pushEn (c : Nat) : (s.setCnt c).pushEn = s.pushEn := rfl
@[simp] theorem State.setCnt_tr (c : Nat) : (s.setCnt c).tr = s.tr := rfl
@[simp] theorem State.setCnt_idx (c : Nat) : (s.setCnt c).idx = s.idx := rfl
@[simp] theorem State.setCnt_cnt (c : Nat) : (s.setCnt c).cnt = BitVec.ofNat 2 c := rfl
@[simp] theorem State.setCnt_lastTs (c : Nat) : (s.setCnt c).lastTs = s.lastTs := rfl
@[simp] theorem State.setCnt_fb (c : Nat) : (s.setCnt c).fb = s.fb := rfl
@[simp] theorem State.setCnt_flen (c : Nat) : (s.setCnt c).flen = s.flen := rfl
@[simp] theorem State.setCnt_fproto (c : Nat) : (s.setCnt c).fproto = s.fproto := rfl
@[simp] theorem State.setCnt_rsp (c : Nat) : (s.setCnt c).rsp = s.rsp := rfl
@[simp] theorem State.setCnt_event (c : Nat) : (s.setCnt c).event = s.event := rfl
@[simp] theorem State.setCnt_faulted (c : Nat) : (s.setCnt c).faulted = s.faulted := rfl
@[simp] theorem State.setCnt_pending (c : Nat) : (s.setCnt c).pending = s.pending := rfl

/-! #### store -/

@[simp] theorem State.store_cfg (d t : Word) : (s.store d t).cfg = s.cfg := rfl
@[simp] theorem State.store_initDone (d t : Word) : (s.store d t).initDone = s.initDone := rfl
@[simp] theorem State.store_rxEn (d t : Word) : (s.store d t).rxEn = s.rxEn := rfl
@[simp] theorem State.store_pushEn (d t : Word) : (s.store d t).pushEn = s.pushEn := rfl
@[simp] theorem State.store_tr (d t : Word) : (s.store d t).tr = s.tr.write s.idx d := rfl
@[simp] theorem State.store_idx (d t : Word) : (s.store d t).idx = s.idx + 1 := rfl
@[simp] theorem State.store_cnt (d t : Word) : (s.store d t).cnt = s.cnt := rfl
@[simp] theorem State.store_lastTs (d t : Word) : (s.store d t).lastTs = t := rfl
@[simp] theorem State.store_fb (d t : Word) : (s.store d t).fb = s.fb := rfl
@[simp] theorem State.store_flen (d t : Word) : (s.store d t).flen = s.flen := rfl
@[simp] theorem State.store_fproto (d t : Word) : (s.store d t).fproto = s.fproto := rfl
@[simp] theorem State.store_rsp (d t : Word) : (s.store d t).rsp = s.rsp := rfl
@[simp] theorem State.store_event (d t : Word) : (s.store d t).event = s.event := rfl
@[simp] theorem State.store_faulted (d t : Word) : (s.store d t).faulted = s.faulted := rfl
@[simp] theorem State.store_pending (d t : Word) : (s.store d t).pending = s.pending := rfl

/-! #### writeFrame -/

@[simp] theorem State.writeFrame_cfg (out : List Byte) : (s.writeFrame out).cfg = s.cfg := rfl
@[simp] theorem State.writeFrame_initDone (out : List Byte) : (s.writeFrame out).initDone = s.initDone := rfl
@[simp] theorem State.writeFrame_rxEn (out : List Byte) : (s.writeFrame out).rxEn = s.rxEn := rfl
@[simp] theorem State.writeFrame_pushEn (out : List Byte) : (s.writeFrame out).pushEn = s.pushEn := rfl
@[simp] theorem State.writeFrame_tr (out : List Byte) : (s.writeFrame out).tr = s.tr := rfl
@[simp] theorem State.writeFrame_idx (out : List Byte) : (s.writeFrame out).idx = s.idx := rfl
@[simp] theorem State.writeFrame_cnt (out : List Byte) : (s.writeFrame out).cnt = s.cnt := rfl
@[simp] theorem State.writeFrame_lastTs (out : List Byte) : (s.writeFrame out).lastTs = s.lastTs := rfl
@[simp] theorem State.writeFrame_fb (out : List Byte) : (s.writeFrame out).fb = s.fb.writeAll 0 out := rfl
@[simp] theorem State.writeFrame_flen (out : List Byte) : (s.writeFrame out).flen = s.flen := rfl
@[simp] theorem State.writeFrame_fproto (out : List Byte) : (s.writeFrame out).fproto = s.fproto := rfl
@[simp] theorem State.writeFrame_rsp (out : List Byte) : (s.writeFrame out).rsp = s.rsp := rfl
@[simp] theorem State.writeFrame_event (out : List Byte) : (s.writeFrame out).event = s.event := rfl
@[simp] theorem State.writeFrame_faulted (out : List Byte) : (s.writeFrame out).faulted = s.faulted := rfl
@[simp] theorem State.writeFrame_pending (out : List Byte) : (s.writeFrame out).pending = s.pending := rfl

/-! #### setProto -/

@[simp] theorem State.setProto_cfg (p : BitVec 2) : (s.setProto p).cfg = s.cfg := rfl
@[simp] theorem State.setProto_initDone (p : BitVec 2) : (s.setProto p).initDone = s.initDone := rfl
@[simp] theorem State.setProto_rxEn (p : BitVec 2) : (s.setProto p).rxEn = s.rxEn := rfl
@[simp] theorem State.setProto_pushEn (p : BitVec 2) : (s.setProto p).pushEn = s.pushEn := rfl
@[simp] theorem State.setProto_tr (p : BitVec 2) : (s.setProto p).tr = s.tr := rfl
@[simp] theorem State.setProto_idx (p : BitVec 2) : (s.setProto p).idx = s.idx := rfl
@[simp] theorem State.setProto_cnt (p : BitVec 2) : (s.setProto p).cnt = s.cnt := rfl
@[simp] theorem State.setProto_lastTs (p : BitVec 2) : (s.setProto p).lastTs = s.lastTs := rfl
@[simp] theorem State.setProto_fb (p : BitVec 2) : (s.setProto p).fb = s.fb := rfl
@[simp] theorem State.setProto_flen (p : BitVec 2) : (s.setProto p).flen = s.flen := rfl
@[simp] theorem State.setProto_fproto (p : BitVec 2) : (s.setProto p).fproto = p := rfl
@[simp] theorem State.setProto_rsp (p : BitVec 2) : (s.setProto p).rsp = s.rsp := rfl
@[simp] theorem State.setProto_event (p : BitVec 2) : (s.setProto p).event = s.event := rfl
@[simp] theorem State.setProto_faulted (p : BitVec 2) : (s.setProto p).faulted = s.faulted := rfl
@[simp] theorem State.setProto_pending (p : BitVec 2) : (s.setProto p).pending = s.pending := rfl

/-! #### setLen -/

@[simp] theorem State.setLen_cfg (n : Nat) : (s.setLen n).cfg = s.cfg := rfl
@[simp] theorem State.setLen_initDone (n : Nat) : (s.setLen n).initDone = s.initDone := rfl
@[simp] theorem State.setLen_rxEn (n : Nat) : (s.setLen n).rxEn = s.rxEn := rfl
@[simp] theorem State.setLen_pushEn (n : Nat) : (s.setLen n).pushEn = s.pushEn := rfl
@[simp] theorem State.setLen_tr (n : Nat) : (s.setLen n).tr = s.tr := rfl
@[simp] theorem State.setLen_idx (n : Nat) : (s.setLen n).idx = s.idx := rfl
@[simp] theorem State.setLen_cnt (n : Nat) : (s.setLen n).cnt = s.cnt := rfl
@[simp] theorem State.setLen_lastTs (n : Nat) : (s.setLen n).lastTs = s.lastTs := rfl
@[simp] theorem State.setLen_fb (n : Nat) : (s.setLen n).fb = s.fb := rfl
@[simp] theorem State.setLen_flen (n : Nat) : (s.setLen n).flen = n := rfl
@[simp] theorem State.setLen_fproto (n : Nat) : (s.setLen n).fproto = s.fproto := rfl
@[simp] theorem State.setLen_rsp (n : Nat) : (s.setLen n).rsp = s.rsp := rfl
@[simp] theorem State.setLen_event (n : Nat) : (s.setLen n).event = s.event := rfl
@[simp] theorem State.setLen_faulted (n : Nat) : (s.setLen n).faulted = s.faulted := rfl
@[simp] theorem State.setLen_pending (n : Nat) : (s.setLen n).pending = s.pending := rfl

/-! #### openOutputs -/

@[simp] theorem State.openOutputs_cfg : (s.openOutputs).cfg = s.cfg := rfl
@[simp] theorem State.openOutputs_initDone : (s.openOutputs).initDone = s.initDone := rfl
@[simp] theorem State.openOutputs_rxEn : (s.openOutputs).rxEn = s.rxEn := rfl
@[simp] theorem State.openOutputs_pushEn : (s.openOutputs).pushEn = s.pushEn := rfl
@[simp] theorem State.openOutputs_tr : (s.openOutputs).tr = s.tr := rfl
@[simp] theorem State.openOutputs_idx : (s.openOutputs).idx = s.idx := rfl
@[simp] theorem State.openOutputs_cnt : (s.openOutputs).cnt = s.cnt := rfl
@[simp] theorem State.openOutputs_lastTs : (s.openOutputs).lastTs = s.lastTs := rfl
@[simp] theorem State.openOutputs_fb : (s.openOutputs).fb = s.fb := rfl
@[simp] theorem State.openOutputs_flen : (s.openOutputs).flen = s.flen := rfl
@[simp] theorem State.openOutputs_fproto : (s.openOutputs).fproto = s.fproto := rfl
@[simp] theorem State.openOutputs_rsp : (s.openOutputs).rsp = none := rfl
@[simp] theorem State.openOutputs_event : (s.openOutputs).event = none := rfl
@[simp] theorem State.openOutputs_faulted : (s.openOutputs).faulted = s.faulted := rfl
@[simp] theorem State.openOutputs_pending : (s.openOutputs).pending = s.pending := rfl

/-! #### respond -/

@[simp] theorem State.respond_cfg (st : Status) (f : Option FrameRecord) : (s.respond st f).cfg = s.cfg := rfl
@[simp] theorem State.respond_initDone (st : Status) (f : Option FrameRecord) : (s.respond st f).initDone = s.initDone := rfl
@[simp] theorem State.respond_rxEn (st : Status) (f : Option FrameRecord) : (s.respond st f).rxEn = s.rxEn := rfl
@[simp] theorem State.respond_pushEn (st : Status) (f : Option FrameRecord) : (s.respond st f).pushEn = s.pushEn := rfl
@[simp] theorem State.respond_tr (st : Status) (f : Option FrameRecord) : (s.respond st f).tr = s.tr := rfl
@[simp] theorem State.respond_idx (st : Status) (f : Option FrameRecord) : (s.respond st f).idx = s.idx := rfl
@[simp] theorem State.respond_cnt (st : Status) (f : Option FrameRecord) : (s.respond st f).cnt = s.cnt := rfl
@[simp] theorem State.respond_lastTs (st : Status) (f : Option FrameRecord) : (s.respond st f).lastTs = s.lastTs := rfl
@[simp] theorem State.respond_fb (st : Status) (f : Option FrameRecord) : (s.respond st f).fb = s.fb := rfl
@[simp] theorem State.respond_flen (st : Status) (f : Option FrameRecord) : (s.respond st f).flen = s.flen := rfl
@[simp] theorem State.respond_fproto (st : Status) (f : Option FrameRecord) : (s.respond st f).fproto = s.fproto := rfl
@[simp] theorem State.respond_rsp (st : Status) (f : Option FrameRecord) : (s.respond st f).rsp = some ⟨st, f⟩ := rfl
@[simp] theorem State.respond_event (st : Status) (f : Option FrameRecord) : (s.respond st f).event = s.event := rfl
@[simp] theorem State.respond_faulted (st : Status) (f : Option FrameRecord) : (s.respond st f).faulted = s.faulted := rfl
@[simp] theorem State.respond_pending (st : Status) (f : Option FrameRecord) : (s.respond st f).pending = s.pending := rfl

/-! #### emit -/

@[simp] theorem State.emit_cfg (f : FrameRecord) : (s.emit f).cfg = s.cfg := rfl
@[simp] theorem State.emit_initDone (f : FrameRecord) : (s.emit f).initDone = s.initDone := rfl
@[simp] theorem State.emit_rxEn (f : FrameRecord) : (s.emit f).rxEn = s.rxEn := rfl
@[simp] theorem State.emit_pushEn (f : FrameRecord) : (s.emit f).pushEn = s.pushEn := rfl
@[simp] theorem State.emit_tr (f : FrameRecord) : (s.emit f).tr = s.tr := rfl
@[simp] theorem State.emit_idx (f : FrameRecord) : (s.emit f).idx = s.idx := rfl
@[simp] theorem State.emit_cnt (f : FrameRecord) : (s.emit f).cnt = s.cnt := rfl
@[simp] theorem State.emit_lastTs (f : FrameRecord) : (s.emit f).lastTs = s.lastTs := rfl
@[simp] theorem State.emit_fb (f : FrameRecord) : (s.emit f).fb = s.fb := rfl
@[simp] theorem State.emit_flen (f : FrameRecord) : (s.emit f).flen = s.flen := rfl
@[simp] theorem State.emit_fproto (f : FrameRecord) : (s.emit f).fproto = s.fproto := rfl
@[simp] theorem State.emit_rsp (f : FrameRecord) : (s.emit f).rsp = s.rsp := rfl
@[simp] theorem State.emit_event (f : FrameRecord) : (s.emit f).event = some f := rfl
@[simp] theorem State.emit_faulted (f : FrameRecord) : (s.emit f).faulted = s.faulted := rfl
@[simp] theorem State.emit_pending (f : FrameRecord) : (s.emit f).pending = s.pending := rfl

/-! #### raise -/

@[simp] theorem State.raise_cfg (f : InterfaceFault) : (s.raise f).cfg = s.cfg := rfl
@[simp] theorem State.raise_initDone (f : InterfaceFault) : (s.raise f).initDone = s.initDone := rfl
@[simp] theorem State.raise_rxEn (f : InterfaceFault) : (s.raise f).rxEn = s.rxEn := rfl
@[simp] theorem State.raise_pushEn (f : InterfaceFault) : (s.raise f).pushEn = s.pushEn := rfl
@[simp] theorem State.raise_tr (f : InterfaceFault) : (s.raise f).tr = s.tr := rfl
@[simp] theorem State.raise_idx (f : InterfaceFault) : (s.raise f).idx = s.idx := rfl
@[simp] theorem State.raise_cnt (f : InterfaceFault) : (s.raise f).cnt = s.cnt := rfl
@[simp] theorem State.raise_lastTs (f : InterfaceFault) : (s.raise f).lastTs = s.lastTs := rfl
@[simp] theorem State.raise_fb (f : InterfaceFault) : (s.raise f).fb = s.fb := rfl
@[simp] theorem State.raise_flen (f : InterfaceFault) : (s.raise f).flen = s.flen := rfl
@[simp] theorem State.raise_fproto (f : InterfaceFault) : (s.raise f).fproto = s.fproto := rfl
@[simp] theorem State.raise_rsp (f : InterfaceFault) : (s.raise f).rsp = some ⟨f.status, none⟩ := rfl
@[simp] theorem State.raise_event (f : InterfaceFault) : (s.raise f).event = none := rfl
@[simp] theorem State.raise_faulted (f : InterfaceFault) : (s.raise f).faulted = true := rfl
@[simp] theorem State.raise_pending (f : InterfaceFault) : (s.raise f).pending = s.pending := rfl

/-! #### setPending -/

@[simp] theorem State.setPending_cfg (q : List Arrival) : (s.setPending q).cfg = s.cfg := rfl
@[simp] theorem State.setPending_initDone (q : List Arrival) : (s.setPending q).initDone = s.initDone := rfl
@[simp] theorem State.setPending_rxEn (q : List Arrival) : (s.setPending q).rxEn = s.rxEn := rfl
@[simp] theorem State.setPending_pushEn (q : List Arrival) : (s.setPending q).pushEn = s.pushEn := rfl
@[simp] theorem State.setPending_tr (q : List Arrival) : (s.setPending q).tr = s.tr := rfl
@[simp] theorem State.setPending_idx (q : List Arrival) : (s.setPending q).idx = s.idx := rfl
@[simp] theorem State.setPending_cnt (q : List Arrival) : (s.setPending q).cnt = s.cnt := rfl
@[simp] theorem State.setPending_lastTs (q : List Arrival) : (s.setPending q).lastTs = s.lastTs := rfl
@[simp] theorem State.setPending_fb (q : List Arrival) : (s.setPending q).fb = s.fb := rfl
@[simp] theorem State.setPending_flen (q : List Arrival) : (s.setPending q).flen = s.flen := rfl
@[simp] theorem State.setPending_fproto (q : List Arrival) : (s.setPending q).fproto = s.fproto := rfl
@[simp] theorem State.setPending_rsp (q : List Arrival) : (s.setPending q).rsp = s.rsp := rfl
@[simp] theorem State.setPending_event (q : List Arrival) : (s.setPending q).event = s.event := rfl
@[simp] theorem State.setPending_faulted (q : List Arrival) : (s.setPending q).faulted = s.faulted := rfl
@[simp] theorem State.setPending_pending (q : List Arrival) : (s.setPending q).pending = q := rfl

/-! #### arrive -/

@[simp] theorem State.arrive_cfg (w : CmdWord) : (s.arrive w).cfg = s.cfg := rfl
@[simp] theorem State.arrive_initDone (w : CmdWord) : (s.arrive w).initDone = s.initDone := rfl
@[simp] theorem State.arrive_rxEn (w : CmdWord) : (s.arrive w).rxEn = s.rxEn := rfl
@[simp] theorem State.arrive_pushEn (w : CmdWord) : (s.arrive w).pushEn = s.pushEn := rfl
@[simp] theorem State.arrive_tr (w : CmdWord) : (s.arrive w).tr = s.tr := rfl
@[simp] theorem State.arrive_idx (w : CmdWord) : (s.arrive w).idx = s.idx := rfl
@[simp] theorem State.arrive_cnt (w : CmdWord) : (s.arrive w).cnt = s.cnt := rfl
@[simp] theorem State.arrive_lastTs (w : CmdWord) : (s.arrive w).lastTs = s.lastTs := rfl
@[simp] theorem State.arrive_fb (w : CmdWord) : (s.arrive w).fb = s.fb := rfl
@[simp] theorem State.arrive_flen (w : CmdWord) : (s.arrive w).flen = s.flen := rfl
@[simp] theorem State.arrive_fproto (w : CmdWord) : (s.arrive w).fproto = s.fproto := rfl
@[simp] theorem State.arrive_rsp (w : CmdWord) : (s.arrive w).rsp = s.rsp := rfl
@[simp] theorem State.arrive_event (w : CmdWord) : (s.arrive w).event = s.event := rfl
@[simp] theorem State.arrive_faulted (w : CmdWord) : (s.arrive w).faulted = s.faulted := rfl
@[simp] theorem State.arrive_pending (w : CmdWord) : (s.arrive w).pending = .command w :: s.pending := rfl

/-! #### publish -/

@[simp] theorem State.publish_cfg (a : Accepted) : (s.publish a).cfg = s.cfg := by
  unfold State.publish; split <;> simp_all
@[simp] theorem State.publish_initDone (a : Accepted) : (s.publish a).initDone = s.initDone := by
  unfold State.publish; split <;> simp_all
@[simp] theorem State.publish_rxEn (a : Accepted) : (s.publish a).rxEn = s.rxEn := by
  unfold State.publish; split <;> simp_all
@[simp] theorem State.publish_pushEn (a : Accepted) : (s.publish a).pushEn = s.pushEn := by
  unfold State.publish; split <;> simp_all
@[simp] theorem State.publish_tr (a : Accepted) : (s.publish a).tr = s.tr := by
  unfold State.publish; split <;> simp_all
@[simp] theorem State.publish_idx (a : Accepted) : (s.publish a).idx = s.idx := by
  unfold State.publish; split <;> simp_all
@[simp] theorem State.publish_cnt (a : Accepted) : (s.publish a).cnt = s.cnt := by
  unfold State.publish; split <;> simp_all
@[simp] theorem State.publish_lastTs (a : Accepted) : (s.publish a).lastTs = s.lastTs := by
  unfold State.publish; split <;> simp_all
@[simp] theorem State.publish_fb (a : Accepted) : (s.publish a).fb = s.fb.writeAll 0 (a.out.take a.nbytes) := by
  unfold State.publish; split <;> simp_all
@[simp] theorem State.publish_flen (a : Accepted) : (s.publish a).flen = a.nbytes := by
  unfold State.publish; split <;> simp_all
@[simp] theorem State.publish_fproto (a : Accepted) : (s.publish a).fproto = a.proto.id := by
  unfold State.publish; split <;> simp_all
@[simp] theorem State.publish_rsp (a : Accepted) : (s.publish a).rsp = s.rsp := by
  unfold State.publish; split <;> simp_all
@[simp] theorem State.publish_event (a : Accepted) : (s.publish a).event = if s.pushEn then some a.record else s.event := by
  unfold State.publish; split <;> simp_all
@[simp] theorem State.publish_faulted (a : Accepted) : (s.publish a).faulted = s.faulted := by
  unfold State.publish; split <;> simp_all
@[simp] theorem State.publish_pending (a : Accepted) : (s.publish a).pending = s.pending := by
  unfold State.publish; split <;> simp_all

/-! #### reset -/

@[simp] theorem State.resetWith_cfg (c : Config) : (State.resetWith c).cfg = c := rfl
@[simp] theorem State.resetWith_initDone (c : Config) : (State.resetWith c).initDone = false := rfl
@[simp] theorem State.resetWith_rxEn (c : Config) : (State.resetWith c).rxEn = false := rfl
@[simp] theorem State.resetWith_pushEn (c : Config) : (State.resetWith c).pushEn = false := rfl
@[simp] theorem State.resetWith_tr (c : Config) : (State.resetWith c).tr = [] := rfl
@[simp] theorem State.resetWith_idx (c : Config) : (State.resetWith c).idx = 0 := rfl
@[simp] theorem State.resetWith_cnt (c : Config) : (State.resetWith c).cnt = 0 := rfl
@[simp] theorem State.resetWith_lastTs (c : Config) : (State.resetWith c).lastTs = 0 := rfl
@[simp] theorem State.resetWith_fb (c : Config) : (State.resetWith c).fb = [] := rfl
@[simp] theorem State.resetWith_flen (c : Config) : (State.resetWith c).flen = 0 := rfl
@[simp] theorem State.resetWith_fproto (c : Config) : (State.resetWith c).fproto = 0 := rfl
@[simp] theorem State.resetWith_rsp (c : Config) : (State.resetWith c).rsp = none := rfl
@[simp] theorem State.resetWith_event (c : Config) : (State.resetWith c).event = none := rfl
@[simp] theorem State.resetWith_faulted (c : Config) : (State.resetWith c).faulted = false := rfl
@[simp] theorem State.resetWith_pending (c : Config) : (State.resetWith c).pending = [] := rfl

/-! #### applyReset -/

@[simp] theorem State.applyReset_cfg : s.applyReset.cfg = s.cfg := rfl
@[simp] theorem State.applyReset_initDone : s.applyReset.initDone = false := rfl
@[simp] theorem State.applyReset_rxEn : s.applyReset.rxEn = false := rfl
@[simp] theorem State.applyReset_pushEn : s.applyReset.pushEn = false := rfl
@[simp] theorem State.applyReset_tr : s.applyReset.tr = [] := rfl
@[simp] theorem State.applyReset_idx : s.applyReset.idx = 0 := rfl
@[simp] theorem State.applyReset_cnt : s.applyReset.cnt = 0 := rfl
@[simp] theorem State.applyReset_lastTs : s.applyReset.lastTs = 0 := rfl
@[simp] theorem State.applyReset_fb : s.applyReset.fb = [] := rfl
@[simp] theorem State.applyReset_flen : s.applyReset.flen = 0 := rfl
@[simp] theorem State.applyReset_fproto : s.applyReset.fproto = 0 := rfl
@[simp] theorem State.applyReset_rsp : s.applyReset.rsp = none := rfl
@[simp] theorem State.applyReset_event : s.applyReset.event = none := rfl
@[simp] theorem State.applyReset_faulted : s.applyReset.faulted = s.faulted := rfl
@[simp] theorem State.applyReset_pending : s.applyReset.pending = s.pending := rfl

end Sys2Proof.Machine
end

