-- ==== Sys2Proof/Laws/Exec.lean ====
section
/-! SUPPORT. What each shared operation and each meaning can answer, said once, so that no later proof unfolds them. -/

namespace Sys2Proof.Machine

variable {s s' : State}

/-! ### Shared operations -/

theorem State.guarded_of_init (h : s.initDone = true) (run : State → Host.Outcome State Fault Refusal) :
    s.guarded run = run s.openOutputs := by simp [State.guarded, h]

theorem State.guarded_of_uninit (h : s.initDone = false) (run : State → Host.Outcome State Fault Refusal) :
    s.guarded run = .next (s.raise .notInitialised) := by simp [State.guarded, h]

theorem State.append_of_lt (h : s.idx < s.cfg.traceCap) (d t : Word) : s.append d t = .ok (s.store d t) := by
  simp [State.append, h]

theorem State.append_ok {d t : Word} (h : s.append d t = .ok s') :
    s.idx < s.cfg.traceCap ∧ s' = s.store d t := by
  unfold State.append at h
  split at h <;> cases h
  exact ⟨‹_›, rfl⟩

theorem isCandidate_iff (d : Word) : isCandidate d = true ↔ 5000 < d.toNat := decide_eq_true_iff

theorem State.isMatch_iff (d : Word) :
    s.isMatch d = true ↔ d.toNat < (s.tr.read 0).toNat + 200 ∧ (s.tr.read 0).toNat < d.toNat + 200 := by
  unfold State.isMatch
  rw [decide_eq_true_iff]
  unfold syncTolUs
  omega

theorem State.traceFull_iff : s.traceFull = true ↔ s.cfg.traceCap ≤ s.idx := decide_eq_true_iff

theorem State.traceFull_eq_false_iff : s.traceFull = false ↔ s.idx < s.cfg.traceCap := by
  rw [← Bool.not_eq_true, State.traceFull_iff, Nat.not_le]

theorem isCandidate_eq_false_iff (d : Word) : isCandidate d = false ↔ d.toNat ≤ 5000 := by
  rw [← Bool.not_eq_true, isCandidate_iff, Nat.not_lt]

/-! ### The branch of EDGE before the append -/

/-- The state `s'` in which EDGE appends a duration `d`, by the path taken (R205). -/
inductive EdgeBranch (s : State) (d : Word) : State → Prop where
  | short (hc : isCandidate d = false) (hf : s.traceFull = false) : EdgeBranch s d s
  | overflow (hc : isCandidate d = false) (hf : s.traceFull = true) : EdgeBranch s d (s.restart.setCnt 0)
  | mismatch (hc : isCandidate d = true) (hm : s.isMatch d = false) : EdgeBranch s d s.restart
  | belowThreshold (hc : isCandidate d = true) (hm : s.isMatch d = true) (hn : s.matchCount ≠ s.cfg.rfcnsync) :
      EdgeBranch s d (s.setCnt s.matchCount).restart
  | decodeFail (hc : isCandidate d = true) (hm : s.isMatch d = true) (hn : s.matchCount = s.cfg.rfcnsync)
      (hl : s.handOverLen ≤ s.cfg.traceCap) (hr : sweepResult s.cfg.maxBytes s.tr s.handOverLen = none) :
      EdgeBranch s d ((s.setCnt s.matchCount).setCnt 0).restart
  | decoded (a : Accepted) (hc : isCandidate d = true) (hm : s.isMatch d = true)
      (hn : s.matchCount = s.cfg.rfcnsync) (hl : s.handOverLen ≤ s.cfg.traceCap)
      (hr : sweepResult s.cfg.maxBytes s.tr s.handOverLen = some a) :
      EdgeBranch s d (((s.setCnt s.matchCount).publish a).setCnt 0).restart

/-- The branch answers a state only by one of the paths. -/
theorem State.edgeBranch_cases {d : Word} (h : s.edgeBranch d = .ok s') : EdgeBranch s d s' := by
  unfold State.edgeBranch at h
  by_cases hc : isCandidate d = true
  · simp only [hc, if_true, State.syncStep] at h
    by_cases hm : s.isMatch d = true
    · simp only [hm, if_true] at h
      by_cases hn : s.matchCount = s.cfg.rfcnsync
      · simp only [hn, if_true, State.handOver, State.sweep, State.setCnt_cfg, State.setCnt_tr] at h
        by_cases hl : s.handOverLen ≤ s.cfg.traceCap
        · simp only [hl, if_true] at h
          cases hr : sweepResult s.cfg.maxBytes s.tr s.handOverLen with
          | none =>
            simp only [hr] at h
            cases h
            exact hn ▸ .decodeFail hc hm hn hl hr
          | some a =>
            simp only [hr] at h
            cases h
            exact hn ▸ .decoded a hc hm hn hl hr
        · simp only [hl, if_false] at h
          cases h
      · simp only [hn, if_false] at h
        cases h
        exact .belowThreshold hc hm hn
    · simp only [hm] at h
      cases h
      exact .mismatch hc (by simpa using hm)
  · have hc' : isCandidate d = false := by simpa using hc
    simp only [hc', State.shortStep] at h
    by_cases hf : s.traceFull = true
    · simp only [hf, if_true] at h
      cases h
      exact .overflow hc' hf
    · have hf' : s.traceFull = false := by simpa using hf
      simp only [hf'] at h
      cases h
      exact .short hc' hf'

/-- Every path is the branch's answer. -/
theorem EdgeBranch.edgeBranch {d : Word} (h : EdgeBranch s d s') : s.edgeBranch d = .ok s' := by
  cases h with
  | short hc hf => simp [State.edgeBranch, State.shortStep, hc, hf]
  | overflow hc hf => simp [State.edgeBranch, State.shortStep, hc, hf]
  | mismatch hc hm => simp [State.edgeBranch, State.syncStep, hc, hm]
  | belowThreshold hc hm hn => simp [State.edgeBranch, State.syncStep, hc, hm, hn]
  | decodeFail hc hm hn hl hr =>
    simp [State.edgeBranch, State.syncStep, State.handOver, State.sweep, hc, hm, hn, hl, hr]
  | decoded a hc hm hn hl hr =>
    simp [State.edgeBranch, State.syncStep, State.handOver, State.sweep, hc, hm, hn, hl, hr]

/-- With `idx` legal (R25) one of the paths is taken. -/
theorem EdgeBranch.exists (hi : s.idx ≤ s.cfg.traceCap) (d : Word) : ∃ s', EdgeBranch s d s' := by
  have hl : s.handOverLen ≤ s.cfg.traceCap := Nat.le_trans (Nat.sub_le _ _) hi
  cases hc : isCandidate d
  · cases hf : s.traceFull
    · exact ⟨_, .short hc hf⟩
    · exact ⟨_, .overflow hc hf⟩
  · cases hm : s.isMatch d
    · exact ⟨_, .mismatch hc hm⟩
    · by_cases hn : s.matchCount = s.cfg.rfcnsync
      · cases hr : sweepResult s.cfg.maxBytes s.tr s.handOverLen
        · exact ⟨_, .decodeFail hc hm hn hl hr⟩
        · exact ⟨_, .decoded _ hc hm hn hl hr⟩
      · exact ⟨_, .belowThreshold hc hm hn⟩

/-- What no path of EDGE changes before the append. -/
theorem EdgeBranch.frame {d : Word} (h : EdgeBranch s d s') :
    s'.cfg = s.cfg ∧ s'.initDone = s.initDone ∧ s'.rxEn = s.rxEn ∧ s'.pushEn = s.pushEn ∧ s'.tr = s.tr ∧
      s'.lastTs = s.lastTs ∧ s'.rsp = s.rsp ∧ s'.faulted = s.faulted ∧ s'.pending = s.pending := by
  cases h <;> simp

/-- The append of EDGE finds its entry, when the capacity is not 0 (R51). -/
theorem EdgeBranch.idx_lt {d : Word} (h : EdgeBranch s d s') (hcap : 0 < s.cfg.traceCap) :
    s'.idx < s'.cfg.traceCap := by
  cases h with
  | short hc hf => simpa [State.traceFull] using hf
  | _ => simpa using hcap

/-! ### The meanings -/

/-- What EDGE answers when it answers a state. -/
inductive EdgeAnswer (s : State) (t : Word) : State → Prop where
  | uninit (hi : s.initDone = false) : EdgeAnswer s t (s.raise .notInitialised)
  | ignored (hi : s.initDone = true) (hr : s.rxEn = false) : EdgeAnswer s t (s.openOutputs.respond .ok none)
  | executed (s1 : State) (hi : s.initDone = true) (hr : s.rxEn = true)
      (hb : EdgeBranch s.openOutputs (s.duration t) s1) (hx : s1.idx < s1.cfg.traceCap) :
      EdgeAnswer s t ((s1.store (s.duration t) t).respond .ok none)

theorem execEdge_cases {t : Word} (h : execEdge t s = .next s') : EdgeAnswer s t s' := by
  unfold execEdge at h
  cases hi : s.initDone
  · rw [State.guarded_of_uninit hi] at h
    cases h
    exact .uninit hi
  · rw [State.guarded_of_init hi] at h
    cases hr : s.rxEn
    · simp only [State.openOutputs_rxEn, hr] at h
      cases h
      exact .ignored hi hr
    · simp only [State.openOutputs_rxEn, hr, if_true] at h
      have hd : s.openOutputs.duration (timestamp t) = s.duration t := rfl
      cases hb : s.openOutputs.edgeBranch (s.duration t) with
      | error f => simp only [State.runEdge, hd, hb] at h; cases h
      | ok s1 =>
        simp only [State.runEdge, hd, hb] at h
        cases ha : s1.append (s.duration t) (timestamp t) with
        | error f => simp only [ha] at h; cases h
        | ok s2 =>
          simp only [ha] at h
          obtain ⟨hx, rfl⟩ := State.append_ok ha
          cases h
          exact .executed s1 hi hr (State.edgeBranch_cases hb) hx

theorem EdgeAnswer.execEdge {t : Word} (h : EdgeAnswer s t s') : execEdge t s = .next s' := by
  unfold Machine.execEdge
  cases h with
  | uninit hi => rw [State.guarded_of_uninit hi]
  | ignored hi hr => rw [State.guarded_of_init hi]; simp [hr]
  | executed s1 hi hr hb hx =>
    rw [State.guarded_of_init hi]
    have hd : s.openOutputs.duration (timestamp t) = s.duration t := rfl
    simp only [State.openOutputs_rxEn, hr, if_true, State.runEdge, hd, hb.edgeBranch, State.append_of_lt hx]
    rfl

/-- EDGE answers a state whenever `idx` and the capacity are legal. -/
theorem EdgeAnswer.exists (hcap : 0 < s.cfg.traceCap) (hi : s.idx ≤ s.cfg.traceCap) (t : Word) :
    ∃ s', EdgeAnswer s t s' := by
  cases h1 : s.initDone
  · exact ⟨_, .uninit h1⟩
  · cases h2 : s.rxEn
    · exact ⟨_, .ignored h1 h2⟩
    · obtain ⟨s1, hb⟩ := EdgeBranch.exists (s := s.openOutputs) hi (s.duration t)
      exact ⟨_, .executed s1 h1 h2 hb (hb.idx_lt hcap)⟩

/-- What RECEIVE answers when it answers a state. -/
theorem execReceive_cases (arg : Word) (h : execReceive arg s = .next s') :
    (s.initDone = false ∧ s' = s.raise .notInitialised) ∨
      (s.initDone = true ∧ s.flen ≤ s.cfg.maxBytes ∧
        s' = (s.openOutputs.setLen 0).respond .ok (some s.frameRecord)) := by
  unfold execReceive at h
  cases hi : s.initDone
  · rw [State.guarded_of_uninit hi] at h
    cases h
    exact .inl ⟨rfl, rfl⟩
  · rw [State.guarded_of_init hi] at h
    by_cases hl : s.flen ≤ s.cfg.maxBytes
    · simp only [State.openOutputs_flen, State.openOutputs_cfg, hl, if_true] at h
      cases h
      exact .inr ⟨rfl, hl, rfl⟩
    · simp only [State.openOutputs_flen, State.openOutputs_cfg, hl, if_false] at h
      cases h

/-- What SETUP_RX answers. -/
theorem execSetupRx_eq (arg : Word) :
    execSetupRx arg s = .next (if s.initDone = true
      then (s.openOutputs.clearTrace.setReception true (deliveryMode arg)).respond .ok none
      else s.raise .notInitialised) := by
  unfold execSetupRx
  cases hi : s.initDone
  · rw [State.guarded_of_uninit hi]; rfl
  · rw [State.guarded_of_init hi]; rfl

/-- What STOP_RX answers. -/
theorem execStopRx_eq (arg : Word) :
    execStopRx arg s = .next (if s.initDone = true
      then (s.openOutputs.clearTrace.setReception false false).respond .ok none
      else s.raise .notInitialised) := by
  unfold execStopRx
  cases hi : s.initDone
  · rw [State.guarded_of_uninit hi]; rfl
  · rw [State.guarded_of_init hi]; rfl

/-! ### The step -/

/-- What a step answers when it answers a state. -/
inductive StepAnswer (s : State) : State → Prop where
  | waits (hp : s.pending = []) : StepAnswer s s.openOutputs
  | illegal (w : CmdWord) (s1 : State) (hf : s.fetch = some (w, s1)) (e : DecodeError)
      (hd : decode w = .error e) : StepAnswer s (s1.raise .illegalCommand)
  | runs (w : CmdWord) (s1 s2 : State) (i : Instr) (hf : s.fetch = some (w, s1)) (hd : decode w = .ok i)
      (hx : exec i s1 = .next s2) : StepAnswer s s2

theorem State.fetch_none : s.fetch = none ↔ s.pending = [] := by
  unfold State.fetch
  split <;> simp_all

/-- Fetching changes the pending arrivals only. -/
theorem State.fetch_some {w : CmdWord} {s1 : State} (h : s.fetch = some (w, s1)) :
    ∃ q, s1 = s.setPending q := by
  unfold State.fetch at h
  split at h <;> cases h
  · exact ⟨_, rfl⟩
  · exact ⟨_, rfl⟩

theorem step_cases (h : step s = .next s') : s.cfg.Legal = true ∧ StepAnswer s s' := by
  unfold step at h
  by_cases hl : s.cfg.Legal = true
  · refine ⟨hl, ?_⟩
    simp only [hl, if_true] at h
    cases hf : s.fetch with
    | none =>
      simp only [hf] at h
      cases h
      exact .waits (State.fetch_none.1 hf)
    | some p =>
      obtain ⟨w, s1⟩ := p
      simp only [hf] at h
      cases hd : decode w with
      | error e =>
        simp only [hd] at h
        cases h
        exact .illegal w s1 hf e hd
      | ok i =>
        simp only [hd] at h
        exact .runs w s1 s' i hf hd h
  · simp only [hl] at h
    cases h

end Sys2Proof.Machine
end

