-- ==== Sys2Proof/Laws/Memory.lean ====
section
/-! SUPPORT. The laws of the storage spaces: what a read gives after a write, and that every operation keeps the
canonical form. -/

namespace Sys2Proof.Machine

variable {w : Nat}

@[simp] theorem Memory.read_nil (a : Nat) : Memory.read ([] : Memory w) a = 0 := rfl

theorem Memory.read_cons (c : Nat × BitVec w) (m : Memory w) (a : Nat) :
    Memory.read (c :: m) a = if c.1 = a then c.2 else Memory.read m a := rfl

theorem Memory.read_erase (m : Memory w) (a b : Nat) :
    Memory.read (Memory.erase m a) b = if b = a then 0 else Memory.read m b := by
  induction m with
  | nil => simp [Memory.erase]
  | cons c m ih =>
    unfold Memory.erase at *
    simp only [List.filter_cons, Memory.read_cons]
    grind [Memory.read_cons]

theorem Memory.read_insert (m : Memory w) (a b : Nat) (v : BitVec w) (h : Memory.read m a = 0)
    (hm : ∀ c ∈ m, c.1 ≠ a) :
    Memory.read (Memory.insert m a v) b = if b = a then v else Memory.read m b := by
  induction m with
  | nil => simp [Memory.insert, Memory.read_cons, eq_comm]
  | cons c m ih =>
    simp only [Memory.insert]
    split <;> grind [Memory.read_cons]

theorem Memory.not_mem_erase (m : Memory w) (a : Nat) : ∀ c ∈ Memory.erase m a, c.1 ≠ a := by
  simp [Memory.erase]

/-- The law of one write: the written entry reads as the written value, every other entry as before. -/
theorem Memory.read_write (m : Memory w) (a b : Nat) (v : BitVec w) :
    Memory.read (Memory.write m a v) b = if b = a then v else Memory.read m b := by
  unfold Memory.write
  split
  · next h => rw [Memory.read_erase, h]
  · rw [Memory.read_insert _ _ _ _ (by simp [Memory.read_erase]) (Memory.not_mem_erase m a), Memory.read_erase]
    grind

@[simp] theorem Memory.read_write_same (m : Memory w) (a : Nat) (v : BitVec w) :
    Memory.read (Memory.write m a v) a = v := by simp [Memory.read_write]

theorem Memory.read_write_other (m : Memory w) {a b : Nat} (v : BitVec w) (h : b ≠ a) :
    Memory.read (Memory.write m a v) b = Memory.read m b := by simp [Memory.read_write, h]

/-- The law of a run of writes. -/
theorem Memory.read_writeAll (m : Memory w) (a b : Nat) (vs : List (BitVec w)) :
    Memory.read (Memory.writeAll m a vs) b =
      if h : a ≤ b ∧ b - a < vs.length then vs[b - a] else Memory.read m b := by
  induction vs generalizing m a with
  | nil => simp [Memory.writeAll]
  | cons v vs ih =>
    simp only [Memory.writeAll, ih, Memory.read_write, List.length_cons]
    by_cases hb : b = a
    · subst hb; simp
    · by_cases h : a + 1 ≤ b ∧ b - (a + 1) < vs.length
      · have h' : a ≤ b ∧ b - a < vs.length + 1 := by omega
        rw [dif_pos h, dif_pos h']
        have : b - a = (b - (a + 1)) + 1 := by omega
        simp [this]
      · have h' : ¬ (a ≤ b ∧ b - a < vs.length + 1) := by omega
        rw [dif_neg h, dif_neg h', if_neg hb]

@[simp] theorem Memory.length_slice (m : Memory w) (a n : Nat) : (Memory.slice m a n).length = n := by
  simp [Memory.slice]

/-- A run of writes is read back by a slice. -/
theorem Memory.slice_writeAll (m : Memory w) (vs : List (BitVec w)) :
    Memory.slice (Memory.writeAll m 0 vs) 0 vs.length = vs := by
  apply List.ext_getElem (by simp)
  intro k h1 h2
  simp [Memory.slice, Memory.read_writeAll, h2]

/-! ### The canonical form -/

theorem Memory.wf_iff (m : Memory w) :
    Memory.wf m = true ↔ m.Pairwise (fun x y => x.1 < y.1) ∧ ∀ c ∈ m, c.2 ≠ 0 := by
  simp [Memory.wf]

theorem Memory.within_iff (m : Memory w) (cap : Nat) : Memory.within m cap = true ↔ ∀ c ∈ m, c.1 < cap := by
  simp [Memory.within]

@[simp] theorem Memory.wf_nil : Memory.wf ([] : Memory w) = true := rfl

@[simp] theorem Memory.within_nil (cap : Nat) : Memory.within ([] : Memory w) cap = true := rfl

theorem Memory.wf_erase (m : Memory w) (a : Nat) (h : Memory.wf m = true) :
    Memory.wf (Memory.erase m a) = true := by
  rw [Memory.wf_iff] at h ⊢
  exact ⟨h.1.sublist List.filter_sublist, fun c hc => h.2 c (List.mem_of_mem_filter hc)⟩

theorem Memory.mem_insert (m : Memory w) (a : Nat) (v : BitVec w) (c : Nat × BitVec w) :
    c ∈ Memory.insert m a v ↔ c = (a, v) ∨ c ∈ m := by
  induction m with
  | nil => simp [Memory.insert]
  | cons x m ih => simp only [Memory.insert]; split <;> grind

theorem Memory.wf_insert (m : Memory w) (a : Nat) (v : BitVec w) (h : Memory.wf m = true) (hv : v ≠ 0)
    (hm : ∀ c ∈ m, c.1 ≠ a) : Memory.wf (Memory.insert m a v) = true := by
  rw [Memory.wf_iff] at h ⊢
  refine ⟨?_, fun c hc => ?_⟩
  · replace h := h.1
    induction m with
    | nil => simp [Memory.insert]
    | cons x m ih =>
      rw [List.pairwise_cons] at h
      have hx := hm x (by simp)
      simp only [Memory.insert]
      split
      · next hlt =>
        refine List.pairwise_cons.2 ⟨fun y hy => ?_, List.pairwise_cons.2 h⟩
        rcases List.mem_cons.1 hy with rfl | hy
        · exact hlt
        · exact Nat.lt_trans hlt (h.1 y hy)
      · next hlt =>
        refine List.pairwise_cons.2 ⟨fun y hy => ?_, ih (fun c hc => hm c (by simp [hc])) h.2⟩
        rcases (Memory.mem_insert m a v y).1 hy with rfl | hy
        · show x.1 < a
          omega
        · exact h.1 y hy
  · rcases (Memory.mem_insert m a v c).1 hc with rfl | hc
    · exact hv
    · exact h.2 c hc

/-- A write keeps the canonical form. -/
theorem Memory.wf_write (m : Memory w) (a : Nat) (v : BitVec w) (h : Memory.wf m = true) :
    Memory.wf (Memory.write m a v) = true := by
  unfold Memory.write
  split
  · exact Memory.wf_erase m a h
  · next hv => exact Memory.wf_insert _ a v (Memory.wf_erase m a h) hv (Memory.not_mem_erase m a)

/-- A run of writes keeps the canonical form. -/
theorem Memory.wf_writeAll (m : Memory w) (a : Nat) (vs : List (BitVec w)) (h : Memory.wf m = true) :
    Memory.wf (Memory.writeAll m a vs) = true := by
  induction vs generalizing m a with
  | nil => exact h
  | cons v vs ih => exact ih _ _ (Memory.wf_write m a v h)

/-- A write inside the space lists nothing outside it. -/
theorem Memory.within_write (m : Memory w) (a : Nat) (v : BitVec w) {cap : Nat}
    (h : Memory.within m cap = true) (ha : a < cap) : Memory.within (Memory.write m a v) cap = true := by
  rw [Memory.within_iff] at h ⊢
  intro c hc
  unfold Memory.write at hc
  split at hc
  · exact h c (List.mem_of_mem_filter hc)
  · rcases (Memory.mem_insert _ a v c).1 hc with rfl | hc
    · exact ha
    · exact h c (List.mem_of_mem_filter hc)

/-- A run of writes inside the space lists nothing outside it. -/
theorem Memory.within_writeAll (m : Memory w) (a : Nat) (vs : List (BitVec w)) {cap : Nat}
    (h : Memory.within m cap = true) (ha : a + vs.length ≤ cap) :
    Memory.within (Memory.writeAll m a vs) cap = true := by
  induction vs generalizing m a with
  | nil => exact h
  | cons v vs ih =>
    rw [List.length_cons] at ha
    exact ih _ _ (Memory.within_write m a v h (by omega)) (by omega)

/-- In canonical form an index below every listed one reads as 0. -/
theorem Memory.read_eq_zero_of_lt (m : Memory w) (a : Nat) (h : ∀ c ∈ m, a < c.1) : Memory.read m a = 0 := by
  induction m with
  | nil => rfl
  | cons c m ih =>
    have hc := h c (by simp)
    rw [Memory.read_cons, if_neg (by omega), ih fun c hc => h c (by simp [hc])]

/-- Equal contents are equal data: two spaces in canonical form that read alike are the same list. -/
theorem Memory.eq_of_read (m m' : Memory w) (h : Memory.wf m = true) (h' : Memory.wf m' = true)
    (hr : ∀ a, Memory.read m a = Memory.read m' a) : m = m' := by
  rw [Memory.wf_iff] at h h'
  induction m generalizing m' with
  | nil =>
    cases m' with
    | nil => rfl
    | cons c m' =>
      have := hr c.1
      rw [Memory.read_nil, Memory.read_cons, if_pos rfl] at this
      exact absurd this.symm (h'.2 c (by simp))
  | cons c m ih =>
    obtain ⟨hp, hz⟩ := h
    rw [List.pairwise_cons] at hp
    cases m' with
    | nil =>
      have := hr c.1
      rw [Memory.read_nil, Memory.read_cons, if_pos rfl] at this
      exact absurd this (hz c (by simp))
    | cons c' m' =>
      obtain ⟨hp', hz'⟩ := h'
      rw [List.pairwise_cons] at hp'
      have hkey : c.1 = c'.1 := by
        rcases Nat.lt_trichotomy c.1 c'.1 with hlt | heq | hgt
        · have := hr c.1
          rw [Memory.read_cons, if_pos rfl, Memory.read_eq_zero_of_lt (c' :: m') c.1 (by
            intro y hy
            rcases List.mem_cons.1 hy with rfl | hy
            · exact hlt
            · exact Nat.lt_trans hlt (hp'.1 y hy))] at this
          exact absurd this (hz c (by simp))
        · exact heq
        · have := hr c'.1
          rw [Memory.read_cons c' m', if_pos rfl, Memory.read_eq_zero_of_lt (c :: m) c'.1 (by
            intro y hy
            rcases List.mem_cons.1 hy with rfl | hy
            · exact hgt
            · exact Nat.lt_trans hgt (hp.1 y hy))] at this
          exact absurd this.symm (hz' c' (by simp))
      have hval : c.2 = c'.2 := by
        have := hr c.1
        rwa [Memory.read_cons, if_pos rfl, Memory.read_cons, if_pos hkey.symm] at this
      have hrest : m = m' := by
        refine ih m' ⟨hp.2, fun x hx => hz x (by simp [hx])⟩ ⟨hp'.2, fun x hx => hz' x (by simp [hx])⟩ fun a => ?_
        by_cases ha : c.1 = a
        · rw [Memory.read_eq_zero_of_lt m a (ha ▸ hp.1), Memory.read_eq_zero_of_lt m' a (ha ▸ hkey ▸ hp'.1)]
        · have := hr a
          rwa [Memory.read_cons, if_neg ha, Memory.read_cons, if_neg (hkey ▸ ha)] at this
      rw [hrest, Prod.ext hkey hval]

/-- In canonical form a space that reads as 0 everywhere lists nothing. -/
theorem Memory.eq_nil_of_read (m : Memory w) (h : Memory.wf m = true) (hr : ∀ a, Memory.read m a = 0) : m = [] :=
  Memory.eq_of_read m [] h Memory.wf_nil hr

end Sys2Proof.Machine
end

