-- ==== Sys2Proof/Laws/PerInstr.lean ====
section
/-! SUPPORT. Statements about every command as syntax, one lemma for each constructor of Instr. -/

namespace Sys2Proof.Laws.OpcodeMap

/-- The command word of `i` is in `i`'s row of the opcode map: `(cmd & mask) = match` (30_encoding.md R72). -/
def Statement (i : Instr) : Prop := encode i &&& opcodeMask = i.opcodeMatch

theorem init (arg : Word) : Statement (.init arg) := (makeWord_and_mask 0x01 arg).trans rfl

theorem setupRx (arg : Word) : Statement (.setupRx arg) := (makeWord_and_mask 0x02 arg).trans rfl

theorem stopRx (arg : Word) : Statement (.stopRx arg) := (makeWord_and_mask 0x03 arg).trans rfl

theorem edge (t : Word) : Statement (.edge t) := (makeWord_and_mask 0x04 t).trans rfl

theorem receive (arg : Word) : Statement (.receive arg) := (makeWord_and_mask 0x05 arg).trans rfl

end Sys2Proof.Laws.OpcodeMap
end

