-- ==== Sys2Proof/Laws/TxReference.lean ====
section
/-! SUPPORT. The bits and the durations of a transmission, position by position. -/

namespace Sys2Proof.Machine

theorem length_byteBits (v : Byte) : (byteBits v).length = 8 := rfl

theorem getElem?_byteBits (v : Byte) {k : Nat} (h : k < 8) : (byteBits v)[k]? = some (v.getLsbD (7 - k)) := by
  obtain rfl | rfl | rfl | rfl | rfl | rfl | rfl | rfl :
    k = 0 ∨ k = 1 ∨ k = 2 ∨ k = 3 ∨ k = 4 ∨ k = 5 ∨ k = 6 ∨ k = 7 := by omega
  all_goals rfl

theorem frameBits_cons (v : Byte) (bytes : List Byte) : frameBits (v :: bytes) = byteBits v ++ frameBits bytes := rfl

theorem length_frameBits (bytes : List Byte) : (frameBits bytes).length = 8 * bytes.length := by
  induction bytes with
  | nil => rfl
  | cons v bytes ih => rw [frameBits_cons, List.length_append, ih, length_byteBits, List.length_cons]; omega

theorem frameBit_cons_lt (v : Byte) (bytes : List Byte) {k : Nat} (h : k < 8) :
    frameBit (v :: bytes) k = v.getLsbD (7 - k) := by
  unfold frameBit
  rw [Nat.div_eq_of_lt h, Nat.mod_eq_of_lt h]
  rfl

theorem frameBit_cons_add (v : Byte) (bytes : List Byte) (k : Nat) :
    frameBit (v :: bytes) (k + 8) = frameBit bytes k := by
  unfold frameBit
  rw [Nat.add_div_right _ (by decide), Nat.add_mod_right]
  rfl

/-- The bits are sent in the order the frame numbers them (R52). -/
theorem getElem?_frameBits (bytes : List Byte) {k : Nat} (h : k < 8 * bytes.length) :
    (frameBits bytes)[k]? = some (frameBit bytes k) := by
  induction bytes generalizing k with
  | nil => simp at h
  | cons v bytes ih =>
    rw [frameBits_cons]
    by_cases hk : k < 8
    · rw [List.getElem?_append_left (by rwa [length_byteBits]), getElem?_byteBits v hk, frameBit_cons_lt v bytes hk]
    · obtain ⟨j, rfl⟩ : ∃ j, k = j + 8 := ⟨k - 8, by omega⟩
      rw [List.getElem?_append_right (by rw [length_byteBits]; omega), length_byteBits, Nat.add_sub_cancel,
        frameBit_cons_add, ih (by simp at h; omega)]

/-- A list of pairs: entries `2 k` and `2 k + 1` are the pair of element `k`. -/
theorem getElem?_flatMap_pair {α β : Type} (f g : α → β) (xs : List α) (k : Nat) :
    (xs.flatMap fun x => [f x, g x])[2 * k]? = (xs[k]?).map f ∧
    (xs.flatMap fun x => [f x, g x])[2 * k + 1]? = (xs[k]?).map g := by
  induction xs generalizing k with
  | nil => simp
  | cons x xs ih =>
    cases k with
    | zero => simp
    | succ k => simpa [Nat.mul_succ] using ih k

theorem length_flatMap_pair {α β : Type} (f g : α → β) (xs : List α) :
    (xs.flatMap fun x => [f x, g x]).length = 2 * xs.length := by
  induction xs with
  | nil => rfl
  | cons x xs ih => rw [List.flatMap_cons, List.length_append, ih, List.length_cons]; simp; omega

theorem length_txFrame (p : Proto) (bytes : List Byte) : (txFrame p bytes).length = 16 * bytes.length + 2 := by
  unfold txFrame ProtoEntry.pulses
  rw [List.length_append, length_flatMap_pair, length_frameBits]
  simp
  omega

/-- The durations of data bit `k` in one repetition: its high phase, then its low phase. -/
theorem getElem?_txDurations (p : Proto) (bytes : List Byte) {k : Nat} (h : k < 8 * bytes.length) :
    (txDurations p bytes 1)[2 * k]? =
        some (BitVec.ofNat 32 ((p.entry.symbol (frameBit bytes k)).1 * p.entry.base)) ∧
    (txDurations p bytes 1)[2 * k + 1]? =
        some (BitVec.ofNat 32 ((p.entry.symbol (frameBit bytes k)).2 * p.entry.base)) := by
  have hl := length_frameBits bytes
  have h1 := getElem?_flatMap_pair
    (fun b => ((Level.high, (p.entry.symbol b).1 * p.entry.base) : Level × Nat))
    (fun b => (Level.low, (p.entry.symbol b).2 * p.entry.base)) (frameBits bytes) k
  have hlen := length_flatMap_pair
    (fun b => ((Level.high, (p.entry.symbol b).1 * p.entry.base) : Level × Nat))
    (fun b => (Level.low, (p.entry.symbol b).2 * p.entry.base)) (frameBits bytes)
  rw [getElem?_frameBits bytes h] at h1
  simp only [txDurations, txStream, List.replicate_one, List.flatten_cons, List.flatten_nil, List.append_nil, txFrame,
    ProtoEntry.pulses, List.getElem?_map]
  rw [List.getElem?_append_left (by rw [hlen, hl]; omega), List.getElem?_append_left (by rw [hlen, hl]; omega), h1.1, h1.2]
  exact ⟨rfl, rfl⟩

end Sys2Proof.Machine
end

