-- ==== Sys2Proof/Tests/Slice0.lean ====
section
/-! SUPPORT. Tests against words, tables and vectors of spec/ (the vector is named where there is one), and for every
statement with hypotheses a concrete state and operands that meet them, at boundary values where it has several
clauses. -/

namespace Sys2Proof.Tests

set_option Elab.async false

open Sys2Proof Sys2Proof.Machine

/-! ### Small states -/

/-- Initialised, with the small capacities `TRACE_CAP` = 18 and `MAXBYTES` = 4 and reception in pull mode. -/
def ready : State := { State.resetWith ⟨2, 18, 4⟩ with initDone := true, rxEn := true }

/-- `ready` with reception off. -/
def idle : State := { ready with rxEn := false }

/-- Entries 0, 1, … of a trace. -/
def traceOf (ds : List Word) : Memory 32 := Memory.writeAll [] 0 ds

/-- The 16 durations of the byte 0xA5 in V1, copied from V-L1a. -/
def d16 : List Word :=
  [1050, 350, 350, 1050, 1050, 350, 350, 1050, 350, 1050, 1050, 350, 350, 1050, 1050, 350]

/-- A V1 frame 0xA5 between two SYNC low phases, `idx` = 18, the counter one below the threshold, push mode. -/
def collected : State :=
  { ready with pushEn := true, tr := traceOf (10850 :: d16 ++ [350]), idx := 18, cnt := 1 }

/-- `s` with one command word arrived. -/
def given (s : State) (w : CmdWord) : State := { s with pending := [.command w] }

/-- Fields of the state an outcome leads to. -/
def after {α : Type} (o : Host.Outcome State Fault Refusal) (f : State → α) : Option α := (nextState o).map f

/-- An outcome that leads to a state is a next state. -/
theorem completes {o : Host.Outcome State Fault Refusal} (h : (nextState o).isSome = true) : ∃ t, o = .next t := by
  cases o with
  | next t => exact ⟨t, rfl⟩
  | fault _ => cases h
  | refused _ => cases h

/-! ### WellFormed and Config.Legal: one ill-formed term for each check -/

theorem test_illformed_init : Instr.WellFormed (.init 1) = false := by decide +kernel
theorem test_illformed_setupRx : Instr.WellFormed (.setupRx 2) = false := by decide +kernel
theorem test_illformed_stopRx : Instr.WellFormed (.stopRx 0x80000000) = false := by decide +kernel
theorem test_illformed_receive : Instr.WellFormed (.receive 1) = false := by decide +kernel
theorem test_wellformed : Instr.WellFormed (.setupRx 1) = true ∧ Instr.WellFormed (.edge 0xFFFFFFFF) = true := by decide +kernel
/-- U4, U5, U6. -/
theorem test_illegal_config :
    Config.Legal ⟨1, 256, 16⟩ = false ∧ Config.Legal ⟨4, 256, 16⟩ = false ∧ Config.Legal ⟨2, 17, 16⟩ = false ∧
    Config.Legal ⟨2, 256, 0⟩ = false ∧ Config.Legal ⟨2, 18, 1⟩ = true ∧ Config.Legal ⟨3, 256, 16⟩ = true := by decide +kernel

/-! ### Decoding: words written from `op[39:32]`, `arg[31:0]` (R70) and the opcode map (R72) -/

theorem test_decode_init : decode 0x0100000000 = .ok (.init 0) := by decide +kernel
theorem test_decode_setupRx : decode 0x0200000001 = .ok (.setupRx 1) := by decide +kernel
theorem test_decode_stopRx : decode 0x0300000000 = .ok (.stopRx 0) := by decide +kernel
theorem test_decode_edge : decode 0x04FFFF041A = .ok (.edge 4294902810) := by decide +kernel
theorem test_decode_receive : decode 0x0512345678 = .ok (.receive 0x12345678) := by decide +kernel
theorem test_decode_illegal :
    decode 0x0600000000 = .error (.illegalOpcode 6) ∧ decode 0xFF00000000 = .error (.illegalOpcode 0xFF) := by decide +kernel
theorem test_encode : encode (.setupRx 1) = 0x0200000001 ∧ encode (.edge 0xFFFF041A) = 0x04FFFF041A := by decide +kernel
theorem test_decodeTableWord :
    decodeTableWord 40 0x0400000001 = some (.edge 1) ∧ decodeTableWord 40 0x0600000000 = none ∧
    decodeTableWord 32 0x0400000001 = none := by decide +kernel
theorem test_withFetchWord_runs_first :
    after (step (State.reset.withFetchWord 40 0x0100000000)) (fun t => (t.initDone, t.rsp)) =
      some (true, some ⟨.ok, none⟩) := by decide +kernel

/-! ### Vectors of 95_test_vectors.md -/

/-- V-E8: EDGE in mode IDLE is ignored. -/
theorem test_edge_ignored :
    after (exec (.edge 777) idle) (fun t => (t.rsp, t.lastTs, t.idx)) = some (some ⟨.ok, none⟩, 0, 0) := by decide +kernel

/-- V-E10: `idx` = 5, `last_ts` = 1000, EDGE 1350. -/
theorem test_edge_short :
    after (exec (.edge 1350) { ready with idx := 5, lastTs := 1000 }) (fun t => (t.tr.read 5, t.idx, t.lastTs)) =
      some (350, 6, 1350) := by decide +kernel

/-- 44_delivery_sink.md R170: SETUP_RX push. -/
theorem test_setupRx :
    after (exec (.setupRx 1) { idle with idx := 3, cnt := 1, flen := 2 })
        (fun t => (t.rxEn, t.pushEn, t.idx, t.cnt, t.flen)) = some (true, true, 0, 0, 2) := by decide +kernel

/-- 44_delivery_sink.md R171. -/
theorem test_stopRx :
    after (exec (.stopRx 0) { collected with flen := 1 }) (fun t => (t.rxEn, t.pushEn, t.tr, t.idx, t.flen)) =
      some (false, false, [], 0, 1) := by decide +kernel

/-- V-R1: the frame 0xA5 of V1 is returned once. -/
theorem test_receive :
    after (exec (.receive 0) { idle with fb := [(0, 0xA5)], flen := 1, fproto := 1 }) (fun t => (t.rsp, t.flen)) =
      some (some ⟨.ok, some ⟨1, 1, [0xA5]⟩⟩, 0) := by decide +kernel

/-- 60_exceptions.md R204: before INIT. -/
theorem test_receive_before_init :
    after (exec (.receive 0) State.reset) (fun t => (t.rsp, t.faulted)) = some (some ⟨.errNotInit, none⟩, true) := by
  decide +kernel

/-- V-S3 and V-S4: 10651 matches 10850, 10650 does not. -/
theorem test_match_bound :
    State.isMatch { ready with tr := [(0, 10850)] } 10651 = true ∧
    State.isMatch { ready with tr := [(0, 10850)] } 10650 = false := by decide +kernel

/-- V-L1a and V-D1. -/
theorem test_decode_frame : decodeFrame 16 (traceOf (10850 :: d16)) .v1 17 = .accept [0xA5] 1 := by decide +kernel

/-- V-D6: seven bits are rejected. -/
theorem test_decode_seven_bits :
    decodeFrame 16 (traceOf (10850 :: d16)) .v1 15 = .reject ∧ decodeFrame 16 (traceOf (10850 :: d16)) .v1 16 = .reject := by
  decide +kernel

/-- V-D9: nine bits are two bytes. -/
theorem test_decode_nine_bits :
    decodeFrame 16 (traceOf (10850 :: d16 ++ [1050, 350, 700, 700])) .v1 21 = .accept [0xA5, 0x80] 2 := by
  decide +kernel

/-- V-D13: the byte buffer is full (S3). -/
theorem test_decode_buffer_full :
    decodeFrame 1 (traceOf (10850 :: d16 ++ [350, 1050])) .v1 19 = .accept [0xA5] 1 := by decide +kernel

/-- V-D20: 1050 is the excluded lower bound. -/
theorem test_decode_open_window : decodeFrame 16 (traceOf (13020 :: d16)) .v1 17 = .reject := by decide +kernel

/-- V-D4: V3 bytes 0x00, 0xFF read as V2. -/
theorem test_sweep_v3_as_v2 :
    sweepResult 16 (traceOf (7100 :: txDurations .v3 [0x00, 0xFF] 1)) 33 = some ⟨.v2, [0x00], 1⟩ := by decide +kernel

/-- The stream of R190's example: the durations of V-L1a and the SYNC symbol. -/
theorem test_txDurations : txDurations .v1 [0xA5] 1 = d16 ++ [350, 10850] := by decide +kernel

/-- V-L1b: the edge that closes the frame publishes it, with the FRAME event in push mode. -/
theorem test_edge_decodes :
    after (exec (.edge 10850) collected) (fun t => (t.fproto, t.fb, t.event, t.idx)) =
      some (1, [(0, 0xA5)], some ⟨1, 1, [0xA5]⟩, 1) := by decide +kernel

/-! ### Witnesses: the hypotheses of each statement can be met together -/

theorem ready_inv : ready.Inv where
  legal := by decide +kernel
  idx_le := by decide +kernel
  trace_zero := fun _ _ => rfl
  cnt_lt := by decide +kernel
  flen_le := by decide +kernel
  proto_valid := by decide +kernel
  rx_init := by decide +kernel
  push_rx := by decide +kernel
  tr_wf := by decide +kernel
  tr_within := by decide +kernel
  fb_wf := by decide +kernel
  fb_within := by decide +kernel

theorem witness_IllegalOpcodeAnswersErrIllegal :
    ready.cfg.Legal = true ∧ (given ready 0x0600000000).pending = .command 0x0600000000 :: [] ∧
    ¬ (1 ≤ (0x0600000000 : CmdWord).toNat / 2 ^ 32 ∧ (0x0600000000 : CmdWord).toNat / 2 ^ 32 ≤ 5) ∧
    ¬ (1 ≤ (0x00FFFFFFFF : CmdWord).toNat / 2 ^ 32 ∧ (0x00FFFFFFFF : CmdWord).toNat / 2 ^ 32 ≤ 5) :=
  ⟨by decide +kernel, rfl, by decide +kernel, by decide +kernel⟩

theorem witness_ArgumentBitsUsed :
    (3 : Word) ≠ 1 ∧ (3 : Word).getLsbD 0 = (1 : Word).getLsbD 0 ∧ ready.initDone = true ∧ ready.rxEn = true ∧
    ∃ t, exec (.edge 3) ready = .next t :=
  ⟨by decide +kernel, by decide +kernel, rfl, rfl, completes (by decide +kernel)⟩

theorem witness_StepRunsDecodedCommand :
    (given ready 0x0500000000).cfg.Legal = true ∧
    (given ready 0x0500000000).pending = .command 0x0500000000 :: [] ∧
    decode 0x0500000000 = .ok (.receive 0) := by decide +kernel

theorem witness_EdgeGoesBeforeHostCommand :
    ready.cfg.Legal = true ∧ decode 0x0500000000 = .ok (.receive 0) ∧ ready.initDone = true ∧
    ∃ t, step { ready with pending := [.together 1 0x0500000000] } = .next t :=
  ⟨by decide +kernel, by decide +kernel, rfl, completes (by decide +kernel)⟩

theorem witness_WaitsWithNothingPending : ready.cfg.Legal = true ∧ ready.pending = [] := by decide +kernel

theorem witness_ResetMeetsInvariant : Config.Legal ⟨3, 18, 1⟩ = true := by decide +kernel

theorem witness_StepKeepsInvariant :
    { ready with pending := [.command 0x04000003E8] }.Inv ∧
    ∃ t, step { ready with pending := [.command 0x04000003E8] } = .next t :=
  ⟨{ ready_inv with }, completes (by decide +kernel)⟩

theorem witness_ExecutedEdgeLeavesEntry :
    ready.initDone = true ∧ ready.rxEn = true ∧ ∃ t, exec (.edge 1000) ready = .next t := ⟨rfl, rfl, completes (by decide +kernel)⟩

theorem witness_RegistersFitTheirWidths : ready.Inv := ready_inv

theorem witness_ParametersNeverChange : ∃ t, step (given ready 0x0300000000) = .next t := completes (by decide +kernel)

theorem witness_FlagsChangeOnlyByTheirCommands :
    (∃ t, exec (.init 0) State.reset = .next t) ∧ (∃ t, exec (.setupRx 1) State.reset = .next t) ∧
    (idle.initDone = true ∧ ∃ t, exec (.setupRx 1) idle = .next t) ∧
    (ready.initDone = true ∧ ∃ t, exec (.stopRx 0) ready = .next t) :=
  ⟨completes (by decide +kernel), completes (by decide +kernel),
    ⟨rfl, completes (by decide +kernel)⟩, rfl, completes (by decide +kernel)⟩

theorem witness_InterfaceFaultsMarkTheRun :
    State.reset.initDone = false ∧
    ((given State.reset 0x0600000000).cfg.Legal = true ∧
      (given State.reset 0x0600000000).pending = .command 0x0600000000 :: [] ∧
      6 ≤ (0x0600000000 : CmdWord).toNat / 2 ^ 32) ∧
    after (step (given State.reset 0x0400000000)) (fun t => t.rsp) = some (some ⟨.errNotInit, none⟩) ∧
    after (step (given State.reset 0)) (fun t => t.rsp) = some (some ⟨.errIllegal, none⟩) := by decide +kernel

/-- One state in each mode meets the premises. -/
theorem witness_ModeTransitions :
    ∀ x ∈ [(State.reset, Mode.uninit), (idle, .idle), (ready, .rxPull), (collected, .rxPush)],
      (x.1.rxEn = true → x.1.initDone = true) ∧ (x.1.pushEn = true → x.1.rxEn = true) ∧ x.1.mode = x.2 := by decide +kernel

theorem witness_SetupRxResult : idle.initDone = true ∧ State.reset.initDone = false := by decide +kernel

theorem witness_StopRxResult : ready.initDone = true ∧ State.reset.initDone = false := by decide +kernel

theorem witness_ReceiveResult :
    { ready with flen := 4 }.initDone = true ∧ { ready with flen := 4 }.flen ≤ ready.cfg.maxBytes ∧
    State.reset.initDone = false := by decide +kernel

theorem witness_DurationIsWrapSafe :
    (0x100 : Word) = 0x00000100 ∧ { ready with lastTs := 0xFFFFFF00 }.lastTs = 0xFFFFFF00 ∧
    (0 : Word) = ready.lastTs := by decide +kernel

theorem witness_EdgeIgnoredWhileDisabled : idle.initDone = true ∧ idle.rxEn = false := by decide +kernel

/-- 5000 is not a candidate, and the last free entry is used. -/
theorem witness_EdgeShortPulse :
    EdgeMeasures { ready with idx := 17 } 5000 5000 ∧ (5000 : Word).toNat ≤ 5000 ∧ 17 < ready.cfg.traceCap :=
  ⟨⟨rfl, rfl, by decide +kernel⟩, by decide +kernel, by decide +kernel⟩

theorem witness_EdgeOverflow :
    EdgeMeasures { ready with idx := 18 } 5000 5000 ∧ (5000 : Word).toNat ≤ 5000 ∧ 0 < ready.cfg.traceCap ∧
    ready.cfg.traceCap ≤ 18 :=
  ⟨⟨rfl, rfl, by decide +kernel⟩, by decide +kernel, by decide +kernel, by decide +kernel⟩

/-- V-S2: a difference of exactly 200. -/
theorem witness_EdgeSyncMismatch :
    EdgeMeasures collected 11050 11050 ∧ 5000 < (11050 : Word).toNat ∧ 0 < collected.cfg.traceCap ∧
    200 ≤ (((11050 : Word).toNat : Int) - (collected.tr.read 0).toNat).natAbs :=
  ⟨⟨rfl, rfl, by decide +kernel⟩, by decide +kernel, by decide +kernel, by decide +kernel⟩

/-- V-S1: a difference of 199, from a state with `cnt` = 0. -/
theorem witness_EdgeMatchBelowThreshold :
    EdgeMeasures { collected with cnt := 0 } 11049 11049 ∧ 5000 < (11049 : Word).toNat ∧
    collected.cfg.Legal = true ∧
    (((11049 : Word).toNat : Int) - (collected.tr.read 0).toNat).natAbs < 200 ∧
    (0 : BitVec 2).toNat + 1 < collected.cfg.rfcnsync :=
  ⟨⟨rfl, rfl, by decide +kernel⟩, by decide +kernel, by decide +kernel, by decide +kernel, by decide +kernel⟩

/-- V-S8: two long pulses back to back, nothing to decode. -/
def noPairs : State := { ready with tr := [(0, 10850)], idx := 1, cnt := 1 }

theorem witness_EdgeDecodeFailure :
    EdgeMeasures noPairs 10850 10850 ∧ 5000 < (10850 : Word).toNat ∧ 0 < noPairs.cfg.traceCap ∧
    noPairs.idx ≤ noPairs.cfg.traceCap ∧
    (((10850 : Word).toNat : Int) - (noPairs.tr.read 0).toNat).natAbs < 200 ∧
    noPairs.cnt.toNat + 1 = noPairs.cfg.rfcnsync ∧
    ∀ p, decodeFrame noPairs.cfg.maxBytes noPairs.tr p (noPairs.idx - 1) = .reject :=
  ⟨⟨rfl, rfl, by decide +kernel⟩, by decide +kernel, by decide +kernel, by decide +kernel, by decide +kernel, by decide +kernel, fun p => by cases p <;> decide +kernel⟩

theorem witness_EdgeDecodesFrame :
    EdgeMeasures collected 10850 10850 ∧ 5000 < (10850 : Word).toNat ∧ 0 < collected.cfg.traceCap ∧
    collected.idx ≤ collected.cfg.traceCap ∧
    (((10850 : Word).toNat : Int) - (collected.tr.read 0).toNat).natAbs < 200 ∧
    collected.cnt.toNat + 1 = collected.cfg.rfcnsync ∧
    decodeFrame collected.cfg.maxBytes collected.tr .v1 (collected.idx - 1) = .accept [0xA5] 1 ∧
    ∀ q : Proto, q.id.toNat < Proto.v1.id.toNat →
      decodeFrame collected.cfg.maxBytes collected.tr q (collected.idx - 1) = .reject :=
  ⟨⟨rfl, rfl, by decide +kernel⟩, by decide +kernel, by decide +kernel, by decide +kernel, by decide +kernel, by decide +kernel, by decide +kernel,
    fun q => by cases q <;> decide +kernel⟩

theorem witness_EveryCommandCompletes : ready.Inv := ready_inv

/-- Every label is the label of some state with `cnt` below the threshold. -/
theorem witness_OutcomeLabelsAreThePaths :
    ∀ x ∈ [(idle, (5 : Word), OutcomeLabel.ignored), (ready, 5000, .short), ({ ready with idx := 18 }, 5000, .overflow),
        (ready, 5001, .syncMismatch), ({ collected with cnt := 0 }, 10850, .syncMatch), (noPairs, 10850, .decodeFail),
        (collected, 10850, .decoded .v1)],
      x.1.cnt.toNat < x.1.cfg.rfcnsync ∧ x.1.edgeLabel x.2.1 = x.2.2 := by decide +kernel

theorem witness_CounterChanges :
    collected.initDone = true ∧ collected.cfg.Legal = true ∧ collected.cnt.toNat < collected.cfg.rfcnsync ∧
    (∃ t, exec (.edge 10850) collected = .next t) ∧ (∃ t, exec (.setupRx 0) collected = .next t) ∧
    (∃ t, exec (.stopRx 0) collected = .next t) ∧ (∃ t, exec (.init 0) collected = .next t) ∧
    ∃ t, exec (.receive 0) collected = .next t :=
  ⟨rfl, by decide +kernel, by decide +kernel, completes (by decide +kernel), completes (by decide +kernel),
    completes (by decide +kernel), completes (by decide +kernel),
    completes (by decide +kernel)⟩

theorem witness_FrameEventExactlyInPushMode :
    collected.initDone = true ∧ (∃ t, exec (.edge 10850) collected = .next t) ∧
    collected.edgeLabel 10850 = .decoded .v1 ∧ (∀ p, ready.edgeLabel 5 ≠ .decoded p) ∧
    ∃ t, exec (.receive 0) collected = .next t :=
  ⟨rfl, completes (by decide +kernel), by decide +kernel, fun p => by cases p <;> decide +kernel,
    completes (by decide +kernel)⟩

theorem witness_CommandFrames :
    (∃ t, exec (.edge 10850) collected = .next t) ∧ (∃ t, exec (.edge 5) idle = .next t) ∧
    (3 : Nat) ≠ ready.edgeIndex 5 ∧ (∀ p, ready.edgeLabel 5 ≠ .decoded p) ∧ State.reset.initDone = false :=
  ⟨completes (by decide +kernel), completes (by decide +kernel), by decide +kernel,
    fun p => by cases p <;> decide +kernel, rfl⟩

/-- Two different states that no command tells apart: a stale entry past `idx` and a stale byte past `flen`. -/
theorem witness_StaleStorageIsNotObservable :
    noPairs.Alike { noPairs with tr := [(0, 10850), (7, 3)], fb := [(1, 9)] } ∧
    noPairs ≠ { noPairs with tr := [(0, 10850), (7, 3)], fb := [(1, 9)] } ∧ ∃ t, step noPairs = .next t := by
  refine ⟨?_, by decide +kernel, completes (by decide +kernel)⟩
  constructor <;> try rfl
  · intro i hi
    obtain rfl : i = 0 := by rcases hi with h | h <;> simp_all [noPairs]
    rfl
  · intro j hj
    exact absurd hj (Nat.not_lt_zero j)

theorem witness_MatchTestIsOpen :
    (11049 : Word).toNat = (collected.tr.read 0).toNat + 199 ∧ (11050 : Word).toNat = (collected.tr.read 0).toNat + 200 ∧
    isCandidate 5001 = true ∧ State.isMatch { ready with tr := [(0, 4802)] } 5001 = true := by decide +kernel

theorem witness_ReferenceUnitAndTolerance : collected.tr.read 0 ≠ 0 ∧ Proto.v1.entry.oneHi = 3 := by decide +kernel

theorem witness_WindowsAreOpen :
    (1225 : Word).toNat = 350 * 3 + 350 / 2 ∧ (875 : Word).toNat + 350 / 2 = 350 * 3 ∧ (1 : Nat) ≤ 1 ∧
    inWindow 350 1224 3 = true ∧ inWindow 350 876 3 = true := by decide +kernel

theorem witness_ShortTracesAreRejected : (16 : Nat) ≤ 16 ∧ acceptance 7 [0xFE] = .reject := by decide +kernel

theorem witness_ByteCountRoundsUp :
    (8 : Nat) ≤ 9 ∧ 9 = 8 * 1 + 1 ∧ (1 : Nat) ≤ 7 ∧
    decodeFrame 16 (traceOf (10850 :: d16 ++ [1050, 350])) .v1 19 = .accept [0xA5, 0x80] 2 := by decide +kernel

theorem witness_DecodeReadsValidEntriesOnly :
    (traceOf (10850 :: d16 ++ [350]) : Memory 32) ≠ traceOf (10850 :: d16) ∧
    ∀ i, i < 17 → (traceOf (10850 :: d16 ++ [350])).read i = (traceOf (10850 :: d16)).read i := by decide +kernel

/-- A trace for each clause: a V1 frame, a V2 frame, a V3 frame whose first bit is 1, and one that no protocol reads. -/
theorem witness_SweepTakesFirstAcceptance :
    (17 : Nat) ≤ ready.cfg.traceCap ∧
    decodeFrame 4 (traceOf (10850 :: d16)) .v1 17 = .accept [0xA5] 1 ∧
    decodeFrame 4 (traceOf (6500 :: txDurations .v2 [0x12] 1)) .v1 17 = .reject ∧
    decodeFrame 4 (traceOf (6500 :: txDurations .v2 [0x12] 1)) .v2 17 = .accept [0x12] 1 ∧
    decodeFrame 4 (traceOf (7100 :: txDurations .v3 [0x80] 1)) .v1 17 = .reject ∧
    decodeFrame 4 (traceOf (7100 :: txDurations .v3 [0x80] 1)) .v2 17 = .reject ∧
    decodeFrame 4 (traceOf (7100 :: txDurations .v3 [0x80] 1)) .v3 17 = .accept [0x80] 1 ∧
    decodeFrame 4 [] .v1 17 = .reject ∧ decodeFrame 4 [] .v2 17 = .reject ∧ decodeFrame 4 [] .v3 17 = .reject := by
  decide +kernel

theorem witness_PublishWritesFrame :
    (Accepted.mk .v2 [0x12, 0x34] 2).out.length = (Accepted.mk .v2 [0x12, 0x34] 2).nbytes := by decide +kernel

/-- V-D4 and V-D3: first byte 0x00, and first byte 0x80; the trace is the transmission after its SYNC low phase. -/
theorem witness_ZeroByteV3FrameReadsAsV2 :
    ∀ v ∈ [(0x00 : Byte), 0x80],
      [v, 0xFF].length ≤ 2 ∧ (traceOf (7100 :: txDurations .v3 [v, 0xFF] 1)).read 0 = 7100 ∧
      ∀ i, i < 16 * [v, 0xFF].length →
        some ((traceOf (7100 :: txDurations .v3 [v, 0xFF] 1)).read (i + 1)) = (txDurations .v3 [v, 0xFF] 1)[i]? := by
  decide +kernel

/-- The longest frame of its capacities: L = 2 = min(2, (34 - 2) div 16). -/
theorem witness_RoundTripV1 :
    1 ≤ ([0xA5, 0x5A] : List Byte).length ∧ ([0xA5, 0x5A] : List Byte).length ≤ min 2 ((34 - 2) / 16) ∧
    (traceOf (10850 :: txDurations .v1 [0xA5, 0x5A] 1)).read 0 = 10850 ∧
    ∀ i, i < 16 * ([0xA5, 0x5A] : List Byte).length →
      some ((traceOf (10850 :: txDurations .v1 [0xA5, 0x5A] 1)).read (i + 1)) = (txDurations .v1 [0xA5, 0x5A] 1)[i]? := by
  decide +kernel

theorem witness_TransmittedFrameIsDelivered :
    EdgeMeasures collected 11049 11049 ∧ 1 ≤ ([0xA5] : List Byte).length ∧
    ([0xA5] : List Byte).length ≤ collected.cfg.maxBytes ∧ collected.idx = 16 * ([0xA5] : List Byte).length + 2 ∧
    collected.idx ≤ collected.cfg.traceCap ∧ collected.tr.read 0 = 10850 ∧ 10650 < (11049 : Word).toNat ∧
    (11049 : Word).toNat < 11050 ∧ collected.cnt.toNat + 1 = collected.cfg.rfcnsync ∧
    ∀ i v, (txDurations .v1 [0xA5] 1)[i]? = some v → i < 16 * ([0xA5] : List Byte).length →
      (((collected.tr.read (i + 1)).toNat : Int) - v.toNat).natAbs ≤ 174 := by
  have h : ∀ i, i < 16 → (txDurations .v1 [0xA5] 1)[i]? = some (collected.tr.read (i + 1)) := by decide +kernel
  refine ⟨⟨rfl, rfl, by decide +kernel⟩, by decide +kernel, by decide +kernel, rfl, by decide +kernel,
    by decide +kernel, by decide +kernel, by decide +kernel, by decide +kernel, fun i v hv hi => ?_⟩
  rw [h i hi] at hv
  cases hv
  simp

theorem witness_TxStreamShape : 17 < (txStream .v1 [0xA5] 1).length := by decide +kernel

/-- Two sets of channels that agree on channel 0 only. -/
theorem witness_ChannelsAreIndependent :
    ([ready, idle] : Channels)[0]? = ([ready, collected] : Channels)[0]? ∧
    ([ready, idle] : Channels) ≠ [ready, collected] ∧ ∃ es, stepChannel [ready, collected] 0 = .next es :=
  ⟨rfl, by decide +kernel, _, rfl⟩

end Sys2Proof.Tests
end

section
/-! SUPPORT. What each command does to the three flags `init_done`, `rx_en` and `push_en` (10_state.md R24), and the
reset values (10_state.md R35). -/

namespace Sys2Proof.Machine

variable {s t : State}

/-- The three flags of R24 are the same in both states. -/
structure FlagsKept (s t : State) : Prop where
  initDone : t.initDone = s.initDone
  rxEn : t.rxEn = s.rxEn
  pushEn : t.pushEn = s.pushEn

theorem State.raise_flagsKept (f : InterfaceFault) : FlagsKept s (s.raise f) := ⟨rfl, rfl, rfl⟩

/-! ### Each command -/

theorem exec_init_next {a : Word} (h : exec (.init a) s = .next t) :
    t = s.openOutputs.setInit.respond .ok none :=
  (Host.Outcome.next.inj h).symm

theorem exec_setupRx_next {a : Word} (h : exec (.setupRx a) s = .next t) :
    t = if s.initDone = true
      then (s.openOutputs.clearTrace.setReception true (deliveryMode a)).respond .ok none
      else s.raise .notInitialised :=
  (Host.Outcome.next.inj ((execSetupRx_eq a).symm.trans h)).symm

theorem exec_stopRx_next {a : Word} (h : exec (.stopRx a) s = .next t) :
    t = if s.initDone = true
      then (s.openOutputs.clearTrace.setReception false false).respond .ok none
      else s.raise .notInitialised :=
  (Host.Outcome.next.inj ((execStopRx_eq a).symm.trans h)).symm

theorem exec_edge_flagsKept {x : Word} (h : exec (.edge x) s = .next t) : FlagsKept s t := by
  cases execEdge_cases h with
  | uninit _ => exact State.raise_flagsKept _
  | ignored _ _ => exact ⟨rfl, rfl, rfl⟩
  | executed s1 _ _ hb _ =>
    obtain ⟨_, hinit, hrx, hpush, _⟩ := hb.frame
    exact ⟨hinit, hrx, hpush⟩

theorem exec_receive_flagsKept {a : Word} (h : exec (.receive a) s = .next t) : FlagsKept s t := by
  obtain ⟨_, rfl⟩ | ⟨_, _, rfl⟩ := execReceive_cases a h
  · exact State.raise_flagsKept _
  · exact ⟨rfl, rfl, rfl⟩

/-! ### Each flag, over all commands -/

/-- INIT is the only command that writes `init_done`, and no command clears it. -/
theorem exec_initDone_iff {i : Instr} (h : exec i s = .next t) :
    t.initDone = true ↔ s.initDone = true ∨ ∃ a, i = .init a := by
  cases i with
  | init a => simp [exec_init_next h]
  | setupRx a => rw [exec_setupRx_next h]; split <;> simp
  | stopRx a => rw [exec_stopRx_next h]; split <;> simp
  | edge x => simp [(exec_edge_flagsKept h).initDone]
  | receive a => simp [(exec_receive_flagsKept h).initDone]

/-- SETUP_RX and STOP_RX are the only commands that write `rx_en` and `push_en`, and neither does before INIT. -/
theorem exec_reception_kept {i : Instr} (h : exec i s = .next t)
    (hi : s.initDone = false ∨ ∀ a, i ≠ .setupRx a ∧ i ≠ .stopRx a) :
    t.rxEn = s.rxEn ∧ t.pushEn = s.pushEn := by
  cases i with
  | init a => simp [exec_init_next h]
  | setupRx a =>
    have hu : s.initDone = false := hi.resolve_right fun hne => (hne a).1 rfl
    simp [exec_setupRx_next h, hu]
  | stopRx a =>
    have hu : s.initDone = false := hi.resolve_right fun hne => (hne a).2 rfl
    simp [exec_stopRx_next h, hu]
  | edge x => exact ⟨(exec_edge_flagsKept h).rxEn, (exec_edge_flagsKept h).pushEn⟩
  | receive a => exact ⟨(exec_receive_flagsKept h).rxEn, (exec_receive_flagsKept h).pushEn⟩

theorem exec_setupRx_reception {a : Word} (h : exec (.setupRx a) s = .next t) (hi : s.initDone = true) :
    t.rxEn = true ∧ t.pushEn = a.getLsbD 0 := by
  simp [exec_setupRx_next h, hi, deliveryMode]

theorem exec_stopRx_reception {a : Word} (h : exec (.stopRx a) s = .next t) (hi : s.initDone = true) :
    t.rxEn = false ∧ t.pushEn = false := by
  simp [exec_stopRx_next h, hi]

theorem State.frameAvailable_iff : s.frameAvailable = true ↔ s.flen ≠ 0 := bne_iff_ne

theorem State.mode_of_uninit (h : s.initDone = false) : s.mode = .uninit := by simp [State.mode, h]

/-! ### The statements -/

/-- Settles O16: each clause is the lemma of its flag, over the five commands. -/
theorem flagsChangeOnlyByTheirCommands : Obligations.FlagsChangeOnlyByTheirCommands := by
  intro s t i h
  refine ⟨exec_initDone_iff h, exec_reception_kept h, ?_, ?_, State.frameAvailable_iff⟩
  · rintro hi a rfl
    exact exec_setupRx_reception h hi
  · rintro hi a rfl
    exact exec_stopRx_reception h hi

/-- Settles O10: every register by its value in `State.resetWith`; an empty space reads 0, and a state with
`init_done` = 0 is in mode UNINIT. -/
theorem resetValues : Obligations.ResetValues := by
  intro c
  exact ⟨rfl, rfl, rfl, Memory.read_nil, rfl, rfl, rfl, Memory.read_nil, rfl, rfl,
    State.mode_of_uninit (State.resetWith_initDone c), rfl⟩

end Sys2Proof.Machine
end

section
/-! SUPPORT. Which words decode to which command, by their two fields (30_encoding.md R70, R72, R73), and the step on a
word that has arrived and is illegal (R73). -/

namespace Sys2Proof

/-! ### The two fields as numbers and as a truncation -/

theorem toNat_opField (w : CmdWord) : (opField w).toNat = w.toNat / 2 ^ 32 := by
  have hw : w.toNat < 2 ^ 40 := w.isLt
  rw [opField, BitVec.extractLsb'_toNat, Nat.shiftRight_eq_div_pow]
  exact Nat.mod_eq_of_lt (by omega)

theorem argField_eq_setWidth (w : CmdWord) : argField w = w.setWidth 32 :=
  (BitVec.setWidth_eq_extractLsb' (by decide)).symm

/-! ### The decoder -/

/-- A word decodes to the command whose opcode and argument are its two fields (R72). -/
theorem decode_eq_ok_iff {w : CmdWord} {i : Instr} :
    decode w = .ok i ↔ opField w = i.opcode ∧ argField w = i.arg := by
  constructor
  · intro h
    unfold decode at h
    split at h <;> cases h
    all_goals exact ⟨BitVec.eq_of_toNat_eq ‹_›, rfl⟩
  · rintro ⟨hop, harg⟩
    cases i <;> simp [decode, hop, harg, Instr.opcode, Instr.arg]

/-- The opcodes of R72 are 0x01 to 0x05. -/
theorem Instr.opcode_bounds (i : Instr) : 1 ≤ i.opcode.toNat ∧ i.opcode.toNat ≤ 5 := by
  cases i <;> simp [Instr.opcode]

/-- Every `op` from 0x01 to 0x05 is the opcode of a command, with any argument (R72). -/
theorem Instr.exists_opcode {op : Byte} (h : 1 ≤ op.toNat ∧ op.toNat ≤ 5) (a : Word) :
    ∃ i : Instr, op = i.opcode ∧ a = i.arg := by
  obtain h | h | h | h | h : op.toNat = 1 ∨ op.toNat = 2 ∨ op.toNat = 3 ∨ op.toNat = 4 ∨ op.toNat = 5 := by omega
  · exact ⟨.init a, BitVec.eq_of_toNat_eq h, rfl⟩
  · exact ⟨.setupRx a, BitVec.eq_of_toNat_eq h, rfl⟩
  · exact ⟨.stopRx a, BitVec.eq_of_toNat_eq h, rfl⟩
  · exact ⟨.edge a, BitVec.eq_of_toNat_eq h, rfl⟩
  · exact ⟨.receive a, BitVec.eq_of_toNat_eq h, rfl⟩

/-- A word decodes to some command exactly when its `op` is 0x01 to 0x05 (R73). -/
theorem exists_decode_iff (w : CmdWord) :
    (∃ i, decode w = .ok i) ↔ 1 ≤ (opField w).toNat ∧ (opField w).toNat ≤ 5 := by
  simp only [decode_eq_ok_iff]
  constructor
  · rintro ⟨i, hop, -⟩
    rw [hop]
    exact i.opcode_bounds
  · exact fun h => Instr.exists_opcode h (argField w)

/-! ### The opcode map -/

theorem encode_and_mask (i : Instr) : encode i &&& opcodeMask = i.opcodeMatch := by
  cases i with
  | init a => exact Laws.OpcodeMap.init a
  | setupRx a => exact Laws.OpcodeMap.setupRx a
  | stopRx a => exact Laws.OpcodeMap.stopRx a
  | edge t => exact Laws.OpcodeMap.edge t
  | receive a => exact Laws.OpcodeMap.receive a

theorem Instr.opcodeMatch_eq (i : Instr) : i.opcodeMatch = makeWord i.opcode 0 :=
  (encode_and_mask i).symm.trans (makeWord_and_mask i.opcode i.arg)

/-- Mask and match test the opcode of a word and nothing else. -/
theorem and_mask_eq_match_iff (w : CmdWord) (i : Instr) :
    w &&& opcodeMask = i.opcodeMatch ↔ opField w = i.opcode := by
  have hmask : w &&& opcodeMask = makeWord (opField w) 0 := by
    conv_lhs => rw [← makeWord_fields w, makeWord_and_mask]
  rw [hmask, i.opcodeMatch_eq]
  exact ⟨fun h => by simpa using congrArg opField h, fun h => by rw [h]⟩

/-- Mask and match select `i` exactly when the decoder answers it, for `i` with the argument bits of the word (R72). -/
theorem and_mask_eq_match_iff_decode {w : CmdWord} {i : Instr} (harg : w.setWidth 32 = i.arg) :
    w &&& opcodeMask = i.opcodeMatch ↔ decode w = .ok i := by
  rw [and_mask_eq_match_iff, decode_eq_ok_iff, argField_eq_setWidth, and_iff_left harg]

/-- Settles O2: mask and match test the opcode of the row, the decoder the opcode and the argument. -/
theorem opcodeMapSelectsCommand : Obligations.OpcodeMapSelectsCommand := fun w =>
  ⟨and_mask_eq_match_iff_decode (i := .init (w.setWidth 32)) rfl,
    and_mask_eq_match_iff_decode (i := .setupRx (w.setWidth 32)) rfl,
    and_mask_eq_match_iff_decode (i := .stopRx (w.setWidth 32)) rfl,
    and_mask_eq_match_iff_decode (i := .edge (w.setWidth 32)) rfl,
    and_mask_eq_match_iff_decode (i := .receive (w.setWidth 32)) rfl⟩

end Sys2Proof

namespace Sys2Proof.Machine

/-! ### The step on an illegal word -/

theorem State.fetch_command {s : State} {w : CmdWord} {q : List Arrival} (h : s.pending = .command w :: q) :
    s.fetch = some (w, s.setPending q) := by
  simp [State.fetch, h]

/-- A fetched word that decodes to no command raises `IllegalCommand`, in every mode (R204, R210). -/
theorem step_of_decode_error {s s1 : State} {w : CmdWord} {e : DecodeError} (hl : s.cfg.Legal = true)
    (hf : s.fetch = some (w, s1)) (hd : decode w = .error e) : step s = .next (s1.raise .illegalCommand) := by
  simp [step, hl, hf, hd]

/-- Settles O4: the decoder answers a command on `op` 1 to 5 only, and the step raises `IllegalCommand` on any other
word. -/
theorem illegalOpcodeAnswersErrIllegal : Obligations.IllegalOpcodeAnswersErrIllegal := by
  intro s w q
  rw [← toNat_opField, ← exists_decode_iff]
  refine ⟨Iff.rfl, fun hl hp hill => ?_⟩
  cases hd : decode w with
  | ok i => exact absurd ⟨i, hd⟩ hill
  | error e => exact step_of_decode_error hl (State.fetch_command hp) hd

end Sys2Proof.Machine
end

section
/-! SUPPORT. The protocol table and INIT (40_protocol_table.md R90, R91). -/

namespace Sys2Proof.Machine

/-- INIT runs in every mode: it has no guard and no failing branch (R91, R204). -/
theorem exec_init_eq (s : State) (a : Word) :
    exec (.init a) s = .next (s.openOutputs.setInit.respond .ok none) := rfl

/-- Settles O19: the three operations of INIT write `init_done`, the response and the event, and nothing else. -/
theorem initResult : Obligations.InitResult := fun s a =>
  calc exec (.init a) s
    _ = .next (s.openOutputs.setInit.respond .ok none) := exec_init_eq s a
    _ = .next { s with initDone := true, rsp := some ⟨.ok, none⟩, event := none } := rfl

/-- Settles O39: each row of the table of R90 is the equation of `Proto.entry` at that protocol. -/
theorem protocolTable : Obligations.ProtocolTable := ⟨rfl, rfl, rfl⟩

end Sys2Proof.Machine
end

section
/-! SUPPORT. EDGE with reception enabled (41_edge_timer_ring.md): the duration it measures (R102), and the state it
answers for each path before the append (R100, R103). -/

namespace Sys2Proof.Machine

variable {s s1 : State} {x d : Word}

/-! ### The duration -/

/-- Subtraction of 32-bit words is subtraction of integers modulo 2^32 (R102). -/
theorem State.toNat_duration (s : State) (x : Word) :
    ((s.duration x).toNat : Int) = ((x.toNat : Int) - s.lastTs.toNat) % 2 ^ 32 := by
  have hx : x.toNat < 2 ^ 32 := x.isLt
  have hl : s.lastTs.toNat < 2 ^ 32 := s.lastTs.isLt
  rw [State.duration, BitVec.toNat_sub]
  omega

theorem EdgeMeasures.duration_eq (h : EdgeMeasures s x d) : s.duration x = d :=
  BitVec.eq_of_toNat_eq (Int.ofNat.inj ((s.toNat_duration x).trans h.dur))

/-! ### The state after an executed EDGE -/

/-- EDGE takes one path and appends the duration where that path leaves `idx` (R100). -/
theorem EdgeBranch.exec_edge (hb : EdgeBranch s.openOutputs d s1) (hm : EdgeMeasures s x d)
    (hcap : 0 < s.cfg.traceCap) : exec (.edge x) s = .next ((s1.store d x).respond .ok none) := by
  obtain rfl := hm.duration_eq
  exact (EdgeAnswer.executed s1 hm.init hm.rx hb (hb.idx_lt hcap)).execEdge

/-- On every path the append writes one entry and keeps what no EDGE writes (R103, R30). -/
theorem EdgeBranch.stored (hb : EdgeBranch s.openOutputs d s1) :
    EdgeStored s ((s1.store d x).respond .ok none) x d s1.idx := by
  obtain ⟨hcfg, hinit, hrx, hpush, htr, -, -, hfaulted, hpending⟩ := hb.frame
  exact {
    entry := Memory.read_write_same _ _ _
    others := fun _ hi => (Memory.read_write_other _ _ hi).trans (by rw [htr, State.openOutputs_tr])
    idx := rfl
    lastTs := rfl
    cfg := hcfg
    initDone := hinit
    rxEn := hrx
    pushEn := hpush
    rsp := rfl
    faulted := hfaulted
    pending := hpending }

/-! ### The statements -/

/-- Settles O26: a short pulse with a full trace takes the overflow path, which leaves `idx` = 0 and `cnt` = 0 for the
append and keeps the frame registers. -/
theorem edgeOverflow : Obligations.EdgeOverflow := by
  intro s x d hm hd hcap hfull
  have hb : EdgeBranch s.openOutputs d (s.openOutputs.restart.setCnt 0) :=
    .overflow ((isCandidate_eq_false_iff d).2 hd) (State.traceFull_iff.2 hfull)
  exact ⟨_, hb.exec_edge hm hcap, hb.stored, rfl, ⟨fun _ => rfl, rfl, rfl, rfl⟩⟩

/-- Settles O23: the two corner cases are the difference of a timestamp with itself and one that wraps. -/
theorem durationIsWrapSafe : Obligations.DurationIsWrapSafe := by
  intro s x
  refine ⟨s.toNat_duration x, fun hx => ?_, fun hl hx => ?_⟩
  · rw [State.duration, hx]
    exact BitVec.sub_self _
  · rw [State.duration, hl, hx]
    decide

/-- Settles O24: with `rx_en` = 0 the answer is the response alone, with the outputs of the last command cleared. -/
theorem edgeIgnoredWhileDisabled : Obligations.EdgeIgnoredWhileDisabled := by
  intro s x hi hr
  exact (EdgeAnswer.ignored hi hr).execEdge

end Sys2Proof.Machine
end

section
/-! SUPPORT. The two tests of the sync detector (42_sync_detector.md R121, R122) and the EDGE of a long pulse that is not
handed over (R125, R126). -/

namespace Sys2Proof.Machine

variable {s : State}

/-! ### The match test -/

/-- The match test in the form of R122. -/
theorem State.isMatch_iff_natAbs (d : Word) :
    s.isMatch d = true ↔ ((d.toNat : Int) - (s.tr.read 0).toNat).natAbs < 200 := decide_eq_true_iff

theorem State.isMatch_eq_false_iff_natAbs (d : Word) :
    s.isMatch d = false ↔ 200 ≤ ((d.toNat : Int) - (s.tr.read 0).toNat).natAbs := by
  rw [← Bool.not_eq_true, State.isMatch_iff_natAbs, Nat.not_lt]

/-! ### The counter after a match -/

/-- The legal parameters of R6, each on its own. -/
theorem Config.legal_iff {c : Config} :
    c.Legal = true ↔ (c.rfcnsync = 2 ∨ c.rfcnsync = 3) ∧ 18 ≤ c.traceCap ∧ 1 ≤ c.maxBytes := by
  simp [Config.Legal, and_assoc]

/-- A counter that stays below a legal `RFCNSYNC` does not wrap in its two bits (R26). -/
theorem State.toNat_cnt_setCnt_matchCount (hl : s.cfg.Legal = true) (hn : s.matchCount < s.cfg.rfcnsync) :
    (s.setCnt s.matchCount).cnt.toNat = s.cnt.toNat + 1 := by
  obtain ⟨hsync, -⟩ := Config.legal_iff.1 hl
  exact Nat.mod_eq_of_lt (show s.matchCount < 2 ^ 2 by omega)

/-! ### The statements -/

/-- Settles O37: the test is `5000 < d`, at 5000 and at 5001. -/
theorem candidateTestIsStrict : Obligations.CandidateTestIsStrict :=
  ⟨isCandidate_iff, (isCandidate_eq_false_iff 5000).2 (by decide), (isCandidate_iff 5001).2 (by decide)⟩

/-- Settles O38: with the absolute value written as two bounds, each clause is linear arithmetic. -/
theorem matchTestIsOpen : Obligations.MatchTestIsOpen := by
  intro s d
  rw [← Bool.not_eq_true, State.isMatch_iff, isCandidate_iff]
  omega

/-- Settles O27: a candidate outside the tolerance takes the mismatch path, which only sets `idx` = 0 before the
append. -/
theorem edgeSyncMismatch : Obligations.EdgeSyncMismatch := by
  intro s x d hm hd hcap hfar
  have hb : EdgeBranch s.openOutputs d s.openOutputs.restart :=
    .mismatch ((isCandidate_iff d).2 hd) ((State.isMatch_eq_false_iff_natAbs d).2 hfar)
  exact ⟨_, hb.exec_edge hm hcap, hb.stored, rfl, ⟨fun _ => rfl, rfl, rfl, rfl⟩⟩

/-- Settles O28: a match below the threshold takes the path that counts it and sets `idx` = 0 before the append. -/
theorem edgeMatchBelowThreshold : Obligations.EdgeMatchBelowThreshold := by
  intro s x d hm hd hl hnear hn
  obtain ⟨-, hcap, -⟩ := Config.legal_iff.1 hl
  have hb : EdgeBranch s.openOutputs d (s.openOutputs.setCnt s.matchCount).restart :=
    .belowThreshold ((isCandidate_iff d).2 hd) ((State.isMatch_iff_natAbs d).2 hnear) (Nat.ne_of_lt hn)
  exact ⟨_, hb.exec_edge hm (by omega), hb.stored, State.toNat_cnt_setCnt_matchCount hl hn,
    ⟨fun _ => rfl, rfl, rfl, rfl⟩⟩

end Sys2Proof.Machine
end

section
/-! SUPPORT. The outcome label of each path of EDGE (60_exceptions.md R205), and what every command does to the sync
counter (42_sync_detector.md R129). -/

namespace Sys2Proof.Machine

variable {s s1 t : State} {x : Word}

/-! ### The label of each path -/

theorem State.edgeLabel_of_disabled (hr : s.rxEn = false) : s.edgeLabel x = .ignored := by
  simp [State.edgeLabel, hr]

section
variable (hr : s.rxEn = true)
include hr

theorem State.edgeLabel_of_short (hc : isCandidate (s.duration x) = false) (hf : s.traceFull = false) :
    s.edgeLabel x = .short := by
  simp [State.edgeLabel, hr, hc, hf]

theorem State.edgeLabel_of_overflow (hc : isCandidate (s.duration x) = false) (hf : s.traceFull = true) :
    s.edgeLabel x = .overflow := by
  simp [State.edgeLabel, hr, hc, hf]

theorem State.edgeLabel_of_mismatch (hc : isCandidate (s.duration x) = true)
    (hm : s.isMatch (s.duration x) = false) : s.edgeLabel x = .syncMismatch := by
  simp [State.edgeLabel, hr, hc, hm]

theorem State.edgeLabel_of_belowThreshold (hc : isCandidate (s.duration x) = true)
    (hm : s.isMatch (s.duration x) = true) (hn : s.matchCount ≠ s.cfg.rfcnsync) : s.edgeLabel x = .syncMatch := by
  simp [State.edgeLabel, hr, hc, hm, hn]

theorem State.edgeLabel_of_decodeFail (hc : isCandidate (s.duration x) = true)
    (hm : s.isMatch (s.duration x) = true) (hn : s.matchCount = s.cfg.rfcnsync)
    (hs : sweepResult s.cfg.maxBytes s.tr s.handOverLen = none) : s.edgeLabel x = .decodeFail := by
  simp [State.edgeLabel, hr, hc, hm, hn, hs]

theorem State.edgeLabel_of_decoded {a : Accepted} (hc : isCandidate (s.duration x) = true)
    (hm : s.isMatch (s.duration x) = true) (hn : s.matchCount = s.cfg.rfcnsync)
    (hs : sweepResult s.cfg.maxBytes s.tr s.handOverLen = some a) : s.edgeLabel x = .decoded a.proto := by
  simp [State.edgeLabel, hr, hc, hm, hn, hs]

end

/-! ### The counter -/

/-- The value of `cnt` after an EDGE with the label `l`, from the value `c` (R123, R129). -/
def OutcomeLabel.cntAfter (l : OutcomeLabel) (c : Nat) : Nat :=
  match l with
  | .ignored | .short | .syncMismatch => c
  | .overflow | .decodeFail | .decoded _ => 0
  | .syncMatch => c + 1

/-- The path an executed EDGE takes leaves the counter its label says; the append does not touch it. -/
theorem EdgeBranch.toNat_cnt (hb : EdgeBranch s.openOutputs (s.duration x) s1) (hr : s.rxEn = true)
    (hl : s.cfg.Legal = true) (hlt : s.cnt.toNat < s.cfg.rfcnsync) :
    s1.cnt.toNat = (s.edgeLabel x).cntAfter s.cnt.toNat := by
  cases hb with
  | short hc hf => rw [State.edgeLabel_of_short hr hc hf]; rfl
  | overflow hc hf => rw [State.edgeLabel_of_overflow hr hc hf]; rfl
  | mismatch hc hm => rw [State.edgeLabel_of_mismatch hr hc hm]; rfl
  | belowThreshold hc hm hn =>
    rw [State.edgeLabel_of_belowThreshold hr hc hm hn]
    exact State.toNat_cnt_setCnt_matchCount hl (Nat.lt_of_le_of_ne hlt hn)
  | decodeFail hc hm hn _ hs => rw [State.edgeLabel_of_decodeFail hr hc hm hn hs]; rfl
  | decoded a hc hm hn _ hs => rw [State.edgeLabel_of_decoded hr hc hm hn hs]; rfl

theorem exec_edge_toNat_cnt (h : exec (.edge x) s = .next t) (hi : s.initDone = true) (hl : s.cfg.Legal = true)
    (hlt : s.cnt.toNat < s.cfg.rfcnsync) : t.cnt.toNat = (s.edgeLabel x).cntAfter s.cnt.toNat := by
  cases execEdge_cases h with
  | uninit hu => simp [hi] at hu
  | ignored _ hr => rw [State.edgeLabel_of_disabled hr]; rfl
  | executed s1 _ hr hb _ => exact hb.toNat_cnt hr hl hlt

theorem exec_receive_cnt {a : Word} (h : exec (.receive a) s = .next t) : t.cnt = s.cnt := by
  obtain ⟨_, rfl⟩ | ⟨_, _, rfl⟩ := execReceive_cases a h <;> rfl

/-- Settles O33: EDGE by the path it takes, every other command by the state it answers. -/
theorem counterChanges : Obligations.CounterChanges := by
  intro s t x hi hl hlt
  refine ⟨fun h => exec_edge_toNat_cnt h hi hl hlt, fun h => ?setupRx, fun h => ?stopRx, fun h => ?init,
    exec_receive_cnt⟩
  case setupRx => simp [exec_setupRx_next h, hi]
  case stopRx => simp [exec_stopRx_next h, hi]
  case init => simp [exec_init_next h]

end Sys2Proof.Machine
end

section
/-! SUPPORT. When `Decode` rejects and accepts, and the statements about windows, acceptance, byte count and sweep
(43_frame_decoder.md R140 to R151). -/

namespace Sys2Proof.Machine

variable {maxBytes n b : Nat} {tr : Memory 32} {p : Proto} {out bytes : List Byte}

/-! ### When `Decode` rejects and when it accepts -/

theorem inWindow_eq_false_iff (ref : Nat) (v : Word) (units : Nat) :
    inWindow ref v units = false ↔ v.toNat + ref / 2 ≤ ref * units ∨ ref * units + ref / 2 ≤ v.toNat := by
  rw [← Bool.not_eq_true, inWindow_iff]
  omega

theorem acceptance_of_le (hb : 8 ≤ b) (out : List Byte) : acceptance b out = .accept out ((b + 7) / 8) := by
  rw [acceptance_eq, if_neg (Nat.not_lt.2 hb)]

/-- A trace whose first byte is not eight whole symbols is rejected (R150). -/
theorem decodeFrame_eq_reject {k : Nat} (hk : k < 8) (h : n ≤ 2 * k + 2 ∨ symbolAt tr p k = none) :
    decodeFrame maxBytes tr p n = .reject := by
  obtain ⟨b, out, hd, e⟩ := decodeFrame_spec maxBytes tr p n
  have hb : b < 8 := by
    by_contra hb
    obtain ⟨hn, -, hs⟩ := hd.taken k (by omega)
    obtain h | h := h
    · omega
    · simp [hs] at h
  rw [e, if_pos hb]

/-- Eight or more decoded bits are accepted (R150, R151). -/
theorem DecodedBits.decode_accept (h : DecodedBits maxBytes tr p n b out) (hb : 8 ≤ b) :
    decodeFrame maxBytes tr p n = .accept out ((b + 7) / 8) := by
  rw [h.decode, if_neg (Nat.not_lt.2 hb)]

theorem frameBit_eq_false_of_le {k : Nat} (h : 8 * bytes.length ≤ k) : frameBit bytes k = false := by
  rw [frameBit, List.getD_eq_default _ _ (by omega)]
  exact BitVec.getLsbD_zero

theorem frameBit_replicate_zero (m k : Nat) : frameBit (List.replicate m 0) k = false := by
  rw [frameBit, List.getD_eq_getElem?_getD, List.getElem?_getD_replicate_default_eq]
  exact BitVec.getLsbD_zero

/-- A trace of whole bytes whose pairs are the symbols of `bytes` decodes to `bytes`. -/
theorem decodeFrame_of_symbols (hpos : 1 ≤ bytes.length) (hmax : bytes.length ≤ maxBytes)
    (hs : ∀ k, k < 8 * bytes.length → symbolAt tr p k = some (frameBit bytes k)) :
    decodeFrame maxBytes tr p (16 * bytes.length + 1) = .accept bytes bytes.length := by
  have hlen : (8 * bytes.length + 7) / 8 = bytes.length := by omega
  have hd : DecodedBits maxBytes tr p (16 * bytes.length + 1) (8 * bytes.length) bytes :=
    { taken := fun k hk => ⟨by omega, by omega, hs k hk⟩
      stop := .inl (by omega)
      len := hlen.symm
      pad := fun _ hk => frameBit_eq_false_of_le hk }
  rw [hd.decode_accept (by omega), hlen]

/-! ### The statements on windows, symbols, the byte count and the sweep -/

/-- Settles O42: with `inWindow` as linear arithmetic in `ref * units`, each clause follows; the lower bound is not
negative because `ref ≤ ref * units`. -/
theorem windowsAreOpen : Obligations.WindowsAreOpen := by
  intro ref units v
  rw [inWindow_iff, inWindow_eq_false_iff, ← Int.natCast_mul]
  have hunits : 1 ≤ units → ref ≤ ref * units := fun h => Nat.le_mul_of_pos_right ref h
  exact ⟨by omega, by omega, by omega, fun h => by have := hunits h; omega⟩

/-- Settles O43: the unit counts of the two high phases differ, and no duration is in the windows of two counts. -/
theorem symbolsAreUnambiguous : Obligations.SymbolsAreUnambiguous := fun p ref h l =>
  ⟨classify_eq_true_iff p ref h l, classify_eq_false_iff p ref h l,
    fun ⟨hone, hzero⟩ => p.oneHi_ne_zeroHi (inWindow_unique hone hzero)⟩

/-- Settles O46: the formula is the ceiling, and an accepted decode has the bytes of its bits. -/
theorem byteCountRoundsUp : Obligations.ByteCountRoundsUp := by
  refine ⟨fun b out hb => ⟨?formula, fun m r hmr hr => ?ceiling⟩, fun maxBytes tr p n k out h => ?length⟩
  case formula =>
    have hcount : (2 * b + 14) / 16 = (b + 7) / 8 := by omega
    rw [acceptance_of_le hb, hcount]
  case ceiling => split <;> omega
  case length =>
    obtain ⟨_, _, _, _, hlen⟩ := decodeFrame_accept h
    exact ⟨hlen.symm, decodeFrame_bounds h⟩

theorem State.sweep_eq {s : State} (hn : n ≤ s.cfg.traceCap) :
    s.sweep n = .ok (((sweepResult s.cfg.maxBytes s.tr n).map s.publish).getD s) := by
  rw [State.sweep, if_pos hn]
  cases sweepResult s.cfg.maxBytes s.tr n <;> rfl

/-- Settles O48: in each case the answers of the three decodes fix the sweep's result. -/
theorem sweepTakesFirstAcceptance : Obligations.SweepTakesFirstAcceptance := by
  intro s n hn
  rw [State.sweep_eq hn, sweepResult_eq]
  refine ⟨fun out k h1 => ?_, fun out k h1 h2 => ?_, fun out k h1 h2 h3 => ?_, fun h => ?_⟩
  · simp [h1]
  · simp [h1, h2]
  · simp [h1, h2, h3]
  · simp [h]

end Sys2Proof.Machine
end

section
/-! SUPPORT. The trace of a transmission at nominal timing, tried under each protocol (43_frame_decoder.md R155), and
the statements that decode one (R150, R158, R159). -/

namespace Sys2Proof.Machine

variable {maxBytes k : Nat} {tr : Memory 32} {p : Proto} {bytes : List Byte}

/-! ### A nominal trace and its symbols -/

/-- `tr` is what one transmission of `bytes` under `p` leaves after its nominal SYNC low phase. -/
structure NominalTrace (p : Proto) (bytes : List Byte) (tr : Memory 32) : Prop where
  sync : (tr.read 0).toNat = p.entry.syncLo * p.entry.base
  data : ∀ i, i < 16 * bytes.length → some (tr.read (i + 1)) = (txDurations p bytes 1)[i]?

/-- Every byte string has a nominal trace: the one that lists the transmission. -/
theorem exists_nominalTrace (p : Proto) (bytes : List Byte) : ∃ tr, NominalTrace p bytes tr := by
  have hlen : (txDurations p bytes 1).length = 16 * bytes.length + 2 := by
    simp [txDurations, txStream, length_txFrame]
  refine ⟨Memory.writeAll [] 0 (BitVec.ofNat 32 (p.entry.syncLo * p.entry.base) :: txDurations p bytes 1), ?_, ?_⟩
  · rw [Memory.read_writeAll, dif_pos ⟨Nat.le_refl 0, by simp⟩]
    cases p <;> rfl
  · intro i hi
    rw [Memory.read_writeAll, dif_pos ⟨Nat.zero_le _, by simp; omega⟩]
    simp [List.getElem?_eq_getElem (show i < (txDurations p bytes 1).length by omega)]

/-- What `q` reads in the nominal symbol of `bit` sent by `p` (R155). -/
def symbolAs (p q : Proto) (bit : Bool) : Option Bool :=
  classify q (p.entry.syncLo * p.entry.base / q.entry.syncLo)
    (BitVec.ofNat 32 ((p.entry.symbol bit).1 * p.entry.base)) (BitVec.ofNat 32 ((p.entry.symbol bit).2 * p.entry.base))

theorem NominalTrace.symbolAt_eq (h : NominalTrace p bytes tr) (q : Proto) (hk : k < 8 * bytes.length) :
    symbolAt tr q k = symbolAs p q (frameBit bytes k) := by
  obtain ⟨hhi, hlo⟩ := getElem?_txDurations p bytes hk
  have ehi := Option.some.inj ((h.data (2 * k) (by omega)).trans hhi)
  have elo := Option.some.inj ((h.data (2 * k + 1) (by omega)).trans hlo)
  rw [symbolAt, refUnit, h.sync, ehi, elo, symbolAs]

theorem symbolAs_self (p : Proto) (bit : Bool) : symbolAs p p bit = some bit := by
  cases p <;> cases bit <;> decide

/-- Neither V3 symbol is a V1 symbol. -/
theorem symbolAs_v3_v1 (bit : Bool) : symbolAs .v3 .v1 bit = none := by cases bit <;> decide

/-- V2 reads the ZERO of V3 as ZERO. -/
theorem symbolAs_v3_v2_false : symbolAs .v3 .v2 false = some false := by decide

/-- V2 does not read the ONE of V3. -/
theorem symbolAs_v3_v2_true : symbolAs .v3 .v2 true = none := by decide

/-! ### Decoding a nominal trace -/

/-- Under the protocol that sent it, a nominal trace decodes to its bytes. -/
theorem NominalTrace.decode_self (h : NominalTrace p bytes tr) (hpos : 1 ≤ bytes.length)
    (hmax : bytes.length ≤ maxBytes) :
    decodeFrame maxBytes tr p (16 * bytes.length + 1) = .accept bytes bytes.length :=
  decodeFrame_of_symbols hpos hmax fun _ hk => (h.symbolAt_eq p hk).trans (symbolAs_self p _)

/-- V1 rejects a V3 frame at its first pair. -/
theorem NominalTrace.v3_rejected_by_v1 (h : NominalTrace .v3 bytes tr) (hpos : 1 ≤ bytes.length) (n : Nat) :
    decodeFrame maxBytes tr .v1 n = .reject :=
  decodeFrame_eq_reject (k := 0) (by decide) (.inr ((h.symbolAt_eq .v1 (by omega)).trans (symbolAs_v3_v1 _)))

/-- V2 rejects a V3 frame with a 1 bit among its first eight. -/
theorem NominalTrace.v3_rejected_by_v2 (h : NominalTrace .v3 bytes tr) (hpos : 1 ≤ bytes.length) (hk : k < 8)
    (hbit : frameBit bytes k = true) (n : Nat) : decodeFrame maxBytes tr .v2 n = .reject := by
  refine decodeFrame_eq_reject hk (.inr ?_)
  rw [h.symbolAt_eq .v2 (by omega), hbit, symbolAs_v3_v2_true]

/-- `z` is the length of the leading run of 0 bits of `bytes`. -/
structure LeadingZeros (bytes : List Byte) (z : Nat) : Prop where
  le : z ≤ 8 * bytes.length
  zero : ∀ k, k < z → frameBit bytes k = false
  one : z < 8 * bytes.length → frameBit bytes z = true

theorem leadingZeros_takeWhile (bytes : List Byte) :
    LeadingZeros bytes ((frameBits bytes).takeWhile fun b => !b).length := by
  have hlen := length_frameBits bytes
  have hrun : ((frameBits bytes).takeWhile fun b => !b).length = (frameBits bytes).findIdx id := by
    simp [List.takeWhile_eq_take_findIdx_not, List.findIdx_le_length, Function.id_def]
  have hbit : ∀ k (hk : k < (frameBits bytes).length), (frameBits bytes)[k] = frameBit bytes k := fun k hk =>
    List.getElem_eq_iff hk |>.2 (getElem?_frameBits bytes (hlen ▸ hk))
  have hle : (frameBits bytes).findIdx id ≤ (frameBits bytes).length := List.findIdx_le_length
  rw [hrun]
  refine ⟨by omega, fun k hk => ?_, fun hz => ?_⟩
  · rw [← hbit k (by omega)]
    simpa using List.not_of_lt_findIdx hk
  · have hlt : (frameBits bytes).findIdx id < (frameBits bytes).length := by omega
    rw [← hbit _ hlt]
    exact List.findIdx_getElem (w := hlt)

/-- A whole byte of 0 bits is in the run when the first byte is 0. -/
theorem LeadingZeros.eight_le {z : Nat} (hz : LeadingZeros (0 :: bytes) z) : 8 ≤ z := by
  by_contra hlt
  have hone := hz.one (by simp; omega)
  rw [frameBit_cons_lt 0 bytes (by omega)] at hone
  simp at hone

/-- V2 reads the leading run of 0 bits of a V3 frame, and stops at its first 1 bit or at its end. -/
theorem NominalTrace.v3_decodedBits_v2 {z : Nat} (h : NominalTrace .v3 bytes tr) (hz : LeadingZeros bytes z)
    (hmax : bytes.length ≤ maxBytes) :
    DecodedBits maxBytes tr .v2 (16 * bytes.length + 1) z (List.replicate ((z + 7) / 8) 0) := by
  have hle := hz.le
  refine ⟨fun k hk => ⟨by omega, by omega, ?_⟩, ?_, List.length_replicate, fun k _ => frameBit_replicate_zero _ k⟩
  · rw [h.symbolAt_eq .v2 (by omega), hz.zero k hk, symbolAs_v3_v2_false, frameBit_replicate_zero]
  · by_cases hend : z < 8 * bytes.length
    · exact .inr (.inr (by rw [h.symbolAt_eq .v2 hend, hz.one hend, symbolAs_v3_v2_true]))
    · exact .inl (by omega)

theorem exists_frameBit_of_ne_zero {v : Byte} (hv : v ≠ 0) (bytes : List Byte) :
    ∃ k, k < 8 ∧ frameBit (v :: bytes) k = true := by
  by_contra hnone
  refine hv (BitVec.eq_of_getLsbD_eq fun i hi => ?_)
  by_contra hbit
  refine hnone ⟨7 - i, by omega, ?_⟩
  rw [frameBit_cons_lt v bytes (by omega), show 7 - (7 - i) = i by omega]
  simpa using hbit

/-! ### The statements -/

/-- Settles O51: every pair of the trace is the V1 symbol of its bit, and V1 is tried first. -/
theorem roundTripV1 : Obligations.RoundTripV1 := by
  intro c tr bytes hpos hmax hsync hdata
  have htr : NominalTrace .v1 bytes tr := ⟨congrArg BitVec.toNat hsync, hdata⟩
  rw [sweepResult_eq, htr.decode_self hpos (hmax.trans (Nat.min_le_left _ _))]

/-- Settles O45: seven bits need 15 entries and eight need 17; a nominal frame of one byte has 17. -/
theorem shortTracesAreRejected : Obligations.ShortTracesAreRejected := by
  refine ⟨fun b out => ?_, fun maxBytes tr p n hn => decodeFrame_eq_reject (k := 7) (by decide) (.inl hn), fun p => ?_⟩
  · rw [acceptance_eq]
    split
    · next hb => exact iff_of_true rfl (Nat.le_of_lt_succ hb)
    · next hb => exact iff_of_false nofun (by omega)
  · obtain ⟨tr, htr⟩ := exists_nominalTrace p [0]
    exact ⟨tr, [0], htr.decode_self (by decide) (by decide)⟩

/-- Settles O50: V1 never reads a V3 symbol, V2 reads the leading 0 bits only, V3 reads all. -/
theorem zeroByteV3FrameReadsAsV2 : Obligations.ZeroByteV3FrameReadsAsV2 := by
  intro maxBytes tr v bytes hmax hsync hdata
  have htr : NominalTrace .v3 (v :: bytes) tr := ⟨congrArg BitVec.toNat hsync, hdata⟩
  have hpos : 1 ≤ (v :: bytes).length := by simp
  rw [sweepResult_eq, htr.v3_rejected_by_v1 hpos]
  refine ⟨fun hv z hz => ?_, fun hv => ?_⟩
  · have hrun : LeadingZeros (v :: bytes) z := hz ▸ leadingZeros_takeWhile _
    have h8 : 8 ≤ z := by subst hv; exact hrun.eight_le
    rw [(htr.v3_decodedBits_v2 hrun hmax).decode_accept h8]
  · obtain ⟨k, hk, hbit⟩ := exists_frameBit_of_ne_zero hv bytes
    rw [htr.v3_rejected_by_v2 hpos hk hbit, htr.decode_self hpos hmax]

end Sys2Proof.Machine
end

section
/-! SUPPORT. The delivery sink (44_delivery_sink.md): the answers of SETUP_RX, STOP_RX and RECEIVE (R170 to R172), the
frame an executed EDGE publishes, and which commands emit FRAME (R173). -/

namespace Sys2Proof.Machine

variable {s s1 t : State} {x : Word}

/-! ### The answers of the guarded commands -/

/-- Before INIT every other command is `NotInitialised` (R204). -/
theorem exec_of_uninit {i : Instr} (hu : s.initDone = false) (hne : ∀ a, i ≠ .init a) :
    exec i s = .next (s.raise .notInitialised) := by
  cases i with
  | init a => exact absurd rfl (hne a)
  | setupRx a => rw [exec, execSetupRx, State.guarded_of_uninit hu]
  | stopRx a => rw [exec, execStopRx, State.guarded_of_uninit hu]
  | edge x => exact (EdgeAnswer.uninit hu).execEdge
  | receive a => rw [exec, execReceive, State.guarded_of_uninit hu]

theorem exec_setupRx_of_init (hi : s.initDone = true) (a : Word) :
    exec (.setupRx a) s =
      .next ((s.openOutputs.clearTrace.setReception true (deliveryMode a)).respond .ok none) := by
  rw [exec, execSetupRx_eq, if_pos hi]

theorem exec_stopRx_of_init (hi : s.initDone = true) (a : Word) :
    exec (.stopRx a) s = .next ((s.openOutputs.clearTrace.setReception false false).respond .ok none) := by
  rw [exec, execStopRx_eq, if_pos hi]

theorem exec_receive_of_init (hi : s.initDone = true) (hl : s.flen ≤ s.cfg.maxBytes) (a : Word) :
    exec (.receive a) s = .next ((s.openOutputs.setLen 0).respond .ok (some s.frameRecord)) := by
  rw [exec, execReceive, State.guarded_of_init hi]
  exact if_pos hl

theorem State.frameRecord_eq (s : State) :
    s.frameRecord = ⟨s.flen, s.fproto, (List.range s.flen).map s.fb.read⟩ := by
  simp [State.frameRecord, Memory.slice]

/-! ### The frame an EDGE delivers -/

/-- `t` holds a frame of protocol `p` that RECEIVE can return, and its FRAME event is that frame if `s` is in push mode
(R152, R173). -/
structure FrameDelivered (s t : State) (p : Proto) : Prop where
  flen_ne_zero : t.flen ≠ 0
  flen_le : t.flen ≤ t.cfg.maxBytes
  fproto : t.fproto = p.id
  event : t.event = if s.pushEn = true then some t.frameRecord else none

/-- The frame registers read back as the accepted frame: `Publish` writes all its bytes (R152). -/
theorem State.frameRecord_publish {maxBytes n : Nat} {tr : Memory 32} {a : Accepted}
    (hs : sweepResult maxBytes tr n = some a) : (s.publish a).frameRecord = a.record := by
  obtain ⟨-, -, hlen⟩ := sweepResult_bounds hs
  have hslice : (s.fb.writeAll 0 a.out).slice 0 a.nbytes = a.out := hlen ▸ Memory.slice_writeAll s.fb a.out
  simp [State.frameRecord, Accepted.record, Accepted.take_out hs, hslice]

/-- An accepting sweep delivers its frame: its length is 1 to MAXBYTES, and FRAME carries the record of the registers. -/
theorem State.publish_delivers {a : Accepted} {n : Nat} (he : s.event = none)
    (hs : sweepResult s.cfg.maxBytes s.tr n = some a) : FrameDelivered s (s.publish a) a.proto := by
  obtain ⟨hpos, hle, -⟩ := sweepResult_bounds hs
  exact {
    flen_ne_zero := by rw [State.publish_flen]; omega
    flen_le := by rwa [State.publish_flen, State.publish_cfg]
    fproto := State.publish_fproto s a
    event := by rw [State.publish_event, State.frameRecord_publish hs, he] }

/-- What an EDGE after INIT does to the frame: it decodes one and delivers it, or it decodes none and emits nothing. -/
inductive EdgeDelivery (s t : State) (x : Word) : Prop where
  | delivered (p : Proto) (hlabel : s.edgeLabel x = .decoded p) (hd : FrameDelivered s t p)
  | nothing (hlabel : ∀ p, s.edgeLabel x ≠ .decoded p) (he : t.event = none)

/-- The only path that emits is the hand-over to an accepting sweep. -/
theorem EdgeBranch.delivery (hb : EdgeBranch s.openOutputs (s.duration x) s1) (hr : s.rxEn = true) :
    EdgeDelivery s s1 x := by
  cases hb with
  | short hc hf => exact .nothing (by simp [State.edgeLabel_of_short hr hc hf]) rfl
  | overflow hc hf => exact .nothing (by simp [State.edgeLabel_of_overflow hr hc hf]) rfl
  | mismatch hc hm => exact .nothing (by simp [State.edgeLabel_of_mismatch hr hc hm]) rfl
  | belowThreshold hc hm hn => exact .nothing (by simp [State.edgeLabel_of_belowThreshold hr hc hm hn]) rfl
  | decodeFail hc hm hn _ hs => exact .nothing (by simp [State.edgeLabel_of_decodeFail hr hc hm hn hs]) rfl
  | decoded a hc hm hn _ hs =>
    obtain ⟨hne, hle, hproto, hevent⟩ := State.publish_delivers
      (s := s.openOutputs.setCnt s.openOutputs.matchCount) rfl hs
    exact .delivered a.proto (State.edgeLabel_of_decoded hr hc hm hn hs) ⟨hne, hle, hproto, hevent⟩

/-- The append and the response touch neither the frame nor the event. -/
theorem exec_edge_delivery (h : exec (.edge x) s = .next t) (hi : s.initDone = true) : EdgeDelivery s t x := by
  cases execEdge_cases h with
  | uninit hu => simp [hi] at hu
  | ignored _ hr => exact .nothing (by simp [State.edgeLabel_of_disabled hr]) rfl
  | executed s1 _ hr hb _ =>
    cases hb.delivery hr with
    | delivered p hlabel hd => exact .delivered p hlabel ⟨hd.flen_ne_zero, hd.flen_le, hd.fproto, hd.event⟩
    | nothing hlabel he => exact .nothing hlabel he

theorem exec_edge_delivers {p : Proto} (h : exec (.edge x) s = .next t) (hi : s.initDone = true)
    (hlabel : s.edgeLabel x = .decoded p) : FrameDelivered s t p := by
  cases exec_edge_delivery h hi with
  | delivered q hq hd => exact OutcomeLabel.decoded.inj (hq.symm.trans hlabel) ▸ hd
  | nothing hne _ => exact absurd hlabel (hne p)

theorem exec_edge_event_eq_none (h : exec (.edge x) s = .next t) (hi : s.initDone = true)
    (hne : ∀ p, s.edgeLabel x ≠ .decoded p) : t.event = none := by
  cases exec_edge_delivery h hi with
  | delivered p hlabel _ => exact absurd hlabel (hne p)
  | nothing _ he => exact he

/-- EDGE is the only command that emits an event. -/
theorem exec_event_eq_none {i : Instr} (hne : ∀ x, i ≠ .edge x) (h : exec i s = .next t) : t.event = none := by
  cases i with
  | init a => rw [exec_init_next h]; rfl
  | setupRx a => rw [exec_setupRx_next h]; split <;> rfl
  | stopRx a => rw [exec_stopRx_next h]; split <;> rfl
  | edge x => exact absurd rfl (hne x)
  | receive a => obtain ⟨_, rfl⟩ | ⟨_, _, rfl⟩ := execReceive_cases a h <;> rfl

/-! ### The statements -/

/-- Settles O34: a decoding EDGE delivers its frame, within the bounds RECEIVE asks for; every other path and every other
command leave the event empty. -/
theorem frameEventExactlyInPushMode : Obligations.FrameEventExactlyInPushMode := by
  refine ⟨fun s t x hi h => ⟨fun p hlabel => ?decodes, fun p a hlabel => ?received, exec_edge_event_eq_none h hi⟩,
    fun s t i => exec_event_eq_none⟩
  case decodes =>
    obtain ⟨hne, -, hproto, hevent⟩ := exec_edge_delivers h hi hlabel
    exact ⟨hne, hproto, t.frameRecord_eq ▸ hevent⟩
  case received =>
    have hinit : t.initDone = true := (exec_edge_flagsKept h).initDone.trans hi
    have hle : t.flen ≤ t.cfg.maxBytes := (exec_edge_delivers h hi hlabel).flen_le
    exact ⟨_, exec_receive_of_init hinit hle a, rfl, by rw [← t.frameRecord_eq]; rfl⟩

/-- Settles O20: SETUP_RX clears `last_ts`, so the next EDGE measures its timestamp less 0. -/
theorem setupRxResult : Obligations.SetupRxResult := by
  intro s a
  refine ⟨fun hi => ?_, fun hu => exec_of_uninit hu (by simp)⟩
  exact ⟨_, exec_setupRx_of_init hi a, Memory.read_nil, rfl, BitVec.sub_zero⟩

/-- Settles O21: the answered state has `rx_en` = 0 and the outputs an ignored EDGE gives, so every EDGE keeps it. -/
theorem stopRxResult : Obligations.StopRxResult := by
  intro s a
  refine ⟨fun hi => ?_, fun hu => exec_of_uninit hu (by simp)⟩
  exact ⟨_, exec_stopRx_of_init hi a, Memory.read_nil, rfl, fun x => edgeIgnoredWhileDisabled _ x hi rfl⟩

/-- Settles O22: the snapshot is taken before `flen` is cleared; the second RECEIVE takes it with `flen` = 0. -/
theorem receiveResult : Obligations.ReceiveResult := by
  intro s a b
  refine ⟨fun hi hl => ?_, fun hu => exec_of_uninit hu (by simp)⟩
  rw [← s.frameRecord_eq]
  refine ⟨_, exec_receive_of_init hi hl a, rfl, ?second⟩
  exact exec_receive_of_init (s := (s.openOutputs.setLen 0).respond .ok (some s.frameRecord)) hi (Nat.zero_le _) b

end Sys2Proof.Machine
end

section
/-! SUPPORT. The hand-over that every protocol rejects (60_exceptions.md R202), and the condition of each outcome label
(60_exceptions.md R205). -/

namespace Sys2Proof.Machine

variable {s : State} {x : Word}

/-! ### The sweep's answer by protocol -/

/-- The sweep answers with `p` exactly when `p` accepts and the protocols tried before it reject (R140). -/
theorem sweepResult_proto_iff (maxBytes : Nat) (tr : Memory 32) (n : Nat) (p : Proto) :
    (∃ a, sweepResult maxBytes tr n = some a ∧ a.proto = p) ↔
      (∃ out k, decodeFrame maxBytes tr p n = .accept out k) ∧
        ∀ q, q.id.toNat < p.id.toNat → decodeFrame maxBytes tr q n = .reject := by
  constructor
  · rintro ⟨a, ha, rfl⟩
    refine ⟨⟨_, _, sweepResult_some ha⟩, ?_⟩
    rw [sweepResult_eq] at ha
    split at ha <;> cases ha <;> intro q hq
    case h_1 => cases q <;> simp [Proto.id] at hq
    case h_2 =>
      cases q <;> simp [Proto.id] at hq
      assumption
    case h_3 => cases q <;> simp [Proto.id] at hq <;> assumption
  · rintro ⟨⟨out, k, hp⟩, hq⟩
    refine ⟨⟨p, out, k⟩, ?_, rfl⟩
    rw [sweepResult_eq]
    cases p with
    | v1 => simp only [hp]
    | v2 => simp only [hp, hq .v1 (by decide)]
    | v3 => simp only [hp, hq .v1 (by decide), hq .v2 (by decide)]

/-! ### The condition of each label -/

/-- The row of R205 for a label: the path on which `EDGE x` has it. -/
def EdgePath (s : State) (x : Word) : OutcomeLabel → Prop
  | .ignored => s.rxEn = false
  | .short => s.rxEn = true ∧ (s.duration x).toNat ≤ 5000 ∧ s.idx < s.cfg.traceCap
  | .overflow => s.rxEn = true ∧ (s.duration x).toNat ≤ 5000 ∧ s.cfg.traceCap ≤ s.idx
  | .syncMismatch => s.rxEn = true ∧ 5000 < (s.duration x).toNat ∧ s.isMatch (s.duration x) = false
  | .syncMatch => s.rxEn = true ∧ 5000 < (s.duration x).toNat ∧ s.isMatch (s.duration x) = true ∧
      s.matchCount ≠ s.cfg.rfcnsync
  | .decodeFail => s.rxEn = true ∧ 5000 < (s.duration x).toNat ∧ s.isMatch (s.duration x) = true ∧
      s.matchCount = s.cfg.rfcnsync ∧ ∀ p, decodeFrame s.cfg.maxBytes s.tr p s.handOverLen = .reject
  | .decoded p => s.rxEn = true ∧ 5000 < (s.duration x).toNat ∧ s.isMatch (s.duration x) = true ∧
      s.matchCount = s.cfg.rfcnsync ∧ (∃ out k, decodeFrame s.cfg.maxBytes s.tr p s.handOverLen = .accept out k) ∧
      ∀ q, q.id.toNat < p.id.toNat → decodeFrame s.cfg.maxBytes s.tr q s.handOverLen = .reject

/-- On the path of a label the EDGE has that label, so no two paths are taken at once. -/
theorem EdgePath.edgeLabel_eq {l : OutcomeLabel} (h : EdgePath s x l) : s.edgeLabel x = l := by
  cases l with
  | ignored => exact State.edgeLabel_of_disabled h
  | short =>
    obtain ⟨hr, hd, hidx⟩ := h
    exact State.edgeLabel_of_short hr ((isCandidate_eq_false_iff _).2 hd) (State.traceFull_eq_false_iff.2 hidx)
  | overflow =>
    obtain ⟨hr, hd, hidx⟩ := h
    exact State.edgeLabel_of_overflow hr ((isCandidate_eq_false_iff _).2 hd) (State.traceFull_iff.2 hidx)
  | syncMismatch =>
    obtain ⟨hr, hd, hm⟩ := h
    exact State.edgeLabel_of_mismatch hr ((isCandidate_iff _).2 hd) hm
  | syncMatch =>
    obtain ⟨hr, hd, hm, hn⟩ := h
    exact State.edgeLabel_of_belowThreshold hr ((isCandidate_iff _).2 hd) hm hn
  | decodeFail =>
    obtain ⟨hr, hd, hm, hn, hrej⟩ := h
    exact State.edgeLabel_of_decodeFail hr ((isCandidate_iff _).2 hd) hm hn ((sweepResult_none_iff _ _ _).2 hrej)
  | decoded p =>
    obtain ⟨hr, hd, hm, hn, hfirst⟩ := h
    obtain ⟨a, ha, rfl⟩ := (sweepResult_proto_iff _ _ _ p).2 hfirst
    exact State.edgeLabel_of_decoded hr ((isCandidate_iff _).2 hd) hm hn ha

/-- Every EDGE takes the path of some label: the branches of R100, R104 and R120 leave nothing out. -/
theorem EdgePath.exists (s : State) (x : Word) : ∃ l, EdgePath s x l := by
  cases hr : s.rxEn with
  | false => exact ⟨.ignored, hr⟩
  | true =>
    rcases Nat.lt_or_ge 5000 (s.duration x).toNat with hd | hd
    · cases hm : s.isMatch (s.duration x) with
      | false => exact ⟨.syncMismatch, hr, hd, hm⟩
      | true =>
        by_cases hn : s.matchCount = s.cfg.rfcnsync
        · cases hs : sweepResult s.cfg.maxBytes s.tr s.handOverLen with
          | none => exact ⟨.decodeFail, hr, hd, hm, hn, (sweepResult_none_iff _ _ _).1 hs⟩
          | some a => exact ⟨.decoded a.proto, hr, hd, hm, hn, (sweepResult_proto_iff _ _ _ _).1 ⟨a, hs, rfl⟩⟩
        · exact ⟨.syncMatch, hr, hd, hm, hn⟩
    · rcases Nat.lt_or_ge s.idx s.cfg.traceCap with hidx | hidx
      · exact ⟨.short, hr, hd, hidx⟩
      · exact ⟨.overflow, hr, hd, hidx⟩

/-- Each label holds exactly on its path (R205). -/
theorem State.edgeLabel_eq_iff (l : OutcomeLabel) : s.edgeLabel x = l ↔ EdgePath s x l := by
  refine ⟨?_, EdgePath.edgeLabel_eq⟩
  rintro rfl
  obtain ⟨l, hl⟩ := EdgePath.exists s x
  rwa [hl.edgeLabel_eq]

/-! ### The statements -/

/-- Settles O29: a hand-over that nothing accepts takes the path that only sets `cnt` = 0 and `idx` = 0 before the
append. -/
theorem edgeDecodeFailure : Obligations.EdgeDecodeFailure := by
  intro s x d hm hd hcap hidx hnear hn hrej
  have hb : EdgeBranch s.openOutputs d ((s.openOutputs.setCnt s.matchCount).setCnt 0).restart :=
    .decodeFail ((isCandidate_iff d).2 hd) ((State.isMatch_iff_natAbs d).2 hnear) hn
      ((Nat.sub_le _ _).trans hidx) ((sweepResult_none_iff _ _ _).2 hrej)
  exact ⟨_, hb.exec_edge hm hcap, hb.stored, rfl, ⟨fun _ => rfl, rfl, rfl, rfl⟩⟩

/-- Settles O32: each clause is the path of its label; under I4 a match that misses the threshold is below it. -/
theorem outcomeLabelsAreThePaths : Obligations.OutcomeLabelsAreThePaths := by
  intro s x hlt
  have hbelow : s.matchCount ≠ s.cfg.rfcnsync ↔ s.cnt.toNat + 1 < s.cfg.rfcnsync :=
    (Nat.lt_iff_le_and_ne.trans (and_iff_right hlt)).symm
  refine ⟨State.edgeLabel_eq_iff .ignored, State.edgeLabel_eq_iff .short, State.edgeLabel_eq_iff .overflow,
    State.edgeLabel_eq_iff .syncMismatch, ?syncMatch, State.edgeLabel_eq_iff .decodeFail,
    fun p => State.edgeLabel_eq_iff (.decoded p), rfl, rfl, rfl, rfl, rfl, rfl, fun _ => rfl⟩
  case syncMatch =>
    rw [← hbelow]
    exact State.edgeLabel_eq_iff .syncMatch

end Sys2Proof.Machine
end

section
/-! SUPPORT. The interface faults and the mark they leave (60_exceptions.md R204). -/

namespace Sys2Proof.Machine

variable {s t : State}

/-! ### The fault mark -/

/-- The command was accepted: its status is OK and the fault mark is as before. -/
structure AnswersOk (s t : State) : Prop where
  faulted : t.faulted = s.faulted
  rsp : ∃ f, t.rsp = some ⟨.ok, f⟩

/-- A command that answers a state raises `NotInitialised` or is accepted; no command raises the other fault (R204). -/
theorem exec_raises_or_answersOk {i : Instr} (h : exec i s = .next t) :
    t = s.raise .notInitialised ∨ AnswersOk s t := by
  cases i with
  | init a => exact .inr (exec_init_next h ▸ ⟨rfl, _, rfl⟩)
  | setupRx a =>
    obtain rfl := exec_setupRx_next h
    split
    · exact .inr ⟨rfl, _, rfl⟩
    · exact .inl rfl
  | stopRx a =>
    obtain rfl := exec_stopRx_next h
    split
    · exact .inr ⟨rfl, _, rfl⟩
    · exact .inl rfl
  | edge x =>
    cases execEdge_cases h with
    | uninit _ => exact .inl rfl
    | ignored _ _ => exact .inr ⟨rfl, _, rfl⟩
    | executed s1 _ _ hb _ => exact .inr ⟨hb.stored.faulted, _, rfl⟩
  | receive a =>
    obtain ⟨_, rfl⟩ | ⟨_, _, rfl⟩ := execReceive_cases a h
    · exact .inl rfl
    · exact .inr ⟨rfl, _, rfl⟩

/-- The mark of R204 in `t`, after one step from `s`: it was set before, or `t` answers one of the two faults. -/
def MarkFollows (s t : State) : Prop :=
  t.faulted = true ↔
    s.faulted = true ∨ t.rsp = some ⟨.errNotInit, none⟩ ∨ t.rsp = some ⟨.errIllegal, none⟩

theorem State.raise_markFollows (f : InterfaceFault) : MarkFollows s (s.raise f) := by
  cases f <;> simp [MarkFollows, InterfaceFault.status]

theorem AnswersOk.markFollows (h : AnswersOk s t) : MarkFollows s t := by
  obtain ⟨hf, f, hrsp⟩ := h
  simp [MarkFollows, hf, hrsp]

theorem exec_markFollows {i : Instr} (h : exec i s = .next t) : MarkFollows s t := by
  obtain rfl | hok := exec_raises_or_answersOk h
  · exact State.raise_markFollows _
  · exact hok.markFollows

/-- The mark is set by the two faults alone and no step clears it; a waiting step answers nothing. -/
theorem step_markFollows (h : step s = .next t) : MarkFollows s t := by
  obtain ⟨-, ha⟩ := step_cases h
  cases ha with
  | waits _ => simp [MarkFollows]
  | illegal w s1 hf e _ =>
    obtain ⟨q, rfl⟩ := State.fetch_some hf
    exact State.raise_markFollows (s := s.setPending q) .illegalCommand
  | runs w s1 _ i hf _ hx =>
    obtain ⟨q, rfl⟩ := State.fetch_some hf
    exact exec_markFollows (s := s.setPending q) hx

/-- Before INIT every other command answers `ERR_NOT_INIT`. -/
theorem exec_rsp_of_uninit {i : Instr} (hu : s.initDone = false) (hne : ∀ a, i ≠ .init a)
    (h : exec i s = .next t) : t.rsp = some ⟨.errNotInit, none⟩ := by
  obtain rfl := Host.Outcome.next.inj ((exec_of_uninit hu hne).symm.trans h)
  rfl

/-- Settles O17: the first check of the four commands, the illegal word of R73, and the mark over every step. -/
theorem interfaceFaultsMarkTheRun : Obligations.InterfaceFaultsMarkTheRun := by
  refine ⟨fun s a i hu hi => ?guarded, fun s w q hl hp hop => ?illegal, fun s t => step_markFollows, rfl, rfl⟩
  case guarded =>
    obtain rfl | rfl | rfl | rfl := hi
    all_goals exact exec_of_uninit hu (by simp)
  case illegal => exact (illegalOpcodeAnswersErrIllegal s w q).2 hl hp (by omega)

end Sys2Proof.Machine
end

section
/-! SUPPORT. The operating modes and what each command does to them (60_exceptions.md R215). -/

namespace Sys2Proof.Machine

variable {s t : State}

/-! ### The modes as flag patterns -/

theorem State.mode_eq_uninit_iff : s.mode = .uninit ↔ s.initDone = false := by
  unfold State.mode
  split_ifs <;> simp [*]

theorem State.mode_eq_idle_iff : s.mode = .idle ↔ s.initDone = true ∧ s.rxEn = false := by
  unfold State.mode
  split_ifs <;> simp [*]

/-- After INIT a state with reception enabled is in an RX mode, which one `push_en` says. -/
theorem State.mode_of_rx (hi : s.initDone = true) (hr : s.rxEn = true) :
    s.mode = if s.pushEn = true then .rxPush else .rxPull := by
  simp [State.mode, hi, hr]

theorem State.mode_eq_rx_iff (hinv : s.rxEn = true → s.initDone = true) :
    (s.mode = .rxPull ↔ s.rxEn = true ∧ s.pushEn = false) ∧
    (s.mode = .rxPush ↔ s.rxEn = true ∧ s.pushEn = true) := by
  cases hr : s.rxEn with
  | false =>
    have hm : s.mode = .uninit ∨ s.mode = .idle := by
      cases hi : s.initDone <;> simp [State.mode_eq_uninit_iff, State.mode_eq_idle_iff, hi, hr]
    obtain hm | hm := hm <;> simp [hm]
  | true => cases hp : s.pushEn <;> simp [State.mode_of_rx (hinv hr) hr, hp]

theorem FlagsKept.mode_eq (h : FlagsKept s t) : t.mode = s.mode := by
  rw [State.mode, State.mode, h.initDone, h.rxEn, h.pushEn]

/-! ### The transitions -/

/-- INIT leads from UNINIT to IDLE and keeps every other mode. -/
theorem State.mode_setInit (hinv : s.rxEn = true → s.initDone = true) :
    s.setInit.mode = if s.mode = .uninit then .idle else s.mode := by
  cases hi : s.initDone with
  | false =>
    have hr : s.rxEn = false := by simpa [hi] using hinv
    rw [if_pos (State.mode_of_uninit hi)]
    exact State.mode_eq_idle_iff.2 ⟨rfl, hr⟩
  | true =>
    rw [if_neg (by simp [State.mode_eq_uninit_iff, hi])]
    exact FlagsKept.mode_eq ⟨hi.symm, rfl, rfl⟩

theorem exec_setupRx_mode {a : Word} (hi : s.initDone = true) (h : exec (.setupRx a) s = .next t) :
    t.mode = if a.getLsbD 0 = true then .rxPush else .rxPull := by
  obtain ⟨hr, hp⟩ := exec_setupRx_reception h hi
  rw [State.mode_of_rx ((exec_initDone_iff h).2 (.inl hi)) hr, hp]

theorem exec_stopRx_mode {a : Word} (hi : s.initDone = true) (h : exec (.stopRx a) s = .next t) :
    t.mode = .idle :=
  State.mode_eq_idle_iff.2 ⟨(exec_initDone_iff h).2 (.inl hi), (exec_stopRx_reception h hi).1⟩

/-- Settles O18: each mode by its flags, each transition by the flags its command leaves, and EDGE by the label that
`rx_en` = 0 gives. -/
theorem modeTransitions : Obligations.ModeTransitions := by
  intro s a hrx _
  have hrxmode := State.mode_eq_rx_iff hrx
  have hinit : s.mode ≠ .uninit → s.initDone = true := by simp [State.mode_eq_uninit_iff]
  refine ⟨State.mode_eq_uninit_iff, State.mode_eq_idle_iff, hrxmode.1, hrxmode.2, ?init, fun hm => ?setupRx,
    fun hm => ?stopRx, fun t h => ?kept, fun t hm h => ?uninit, fun hm => ?ignored, fun hm => ?runs⟩
  case init => exact ⟨_, exec_init_eq s a, State.mode_setInit hrx⟩
  case setupRx =>
    have h := exec_setupRx_of_init (hinit hm) a
    exact ⟨_, h, exec_setupRx_mode (hinit hm) h⟩
  case stopRx =>
    have h := exec_stopRx_of_init (hinit hm) a
    exact ⟨_, h, exec_stopRx_mode (hinit hm) h⟩
  case kept =>
    obtain h | h := h
    · exact (exec_edge_flagsKept h).mode_eq
    · exact (exec_receive_flagsKept h).mode_eq
  case uninit =>
    have hu : s.initDone = false := State.mode_eq_uninit_iff.1 hm
    obtain h | h | h | h := h
    all_goals exact exec_rsp_of_uninit hu (by simp) h
  case ignored => exact State.edgeLabel_of_disabled (State.mode_eq_idle_iff.1 hm).2
  case runs =>
    rw [hrxmode.1, hrxmode.2, ← and_or_left] at hm
    rw [ne_eq, State.edgeLabel_eq_iff]
    simp [EdgePath, hm.1]

end Sys2Proof.Machine
end

section
/-! SUPPORT. A transition and a host command in the same instant (60_exceptions.md R211). -/

namespace Sys2Proof.Machine

variable {s s1 t : State} {x : Word} {w : CmdWord} {q : List Arrival}

/-- Decoding the word of a command answers the command. -/
theorem decode_encode (i : Instr) : decode (encode i) = .ok i :=
  decode_eq_ok_iff.2 ⟨opField_makeWord _ _, argField_makeWord _ _⟩

/-- A fetched word that decodes to a command is executed (R7). -/
theorem step_of_decode_ok {i : Instr} (hl : s.cfg.Legal = true) (hf : s.fetch = some (w, s1))
    (hd : decode w = .ok i) : step s = exec i s1 := by
  simp [step, hl, hf, hd]

/-- The EDGE of such an arrival comes first, the host command stays at the head of what is pending (R211). -/
theorem State.fetch_together (h : s.pending = .together x w :: q) :
    s.fetch = some (encode (.edge x), s.setPending (.command w :: q)) := by
  simp [State.fetch, h]

theorem step_together (hl : s.cfg.Legal = true) (hp : s.pending = .together x w :: q) :
    step s = exec (.edge x) (s.setPending (.command w :: q)) :=
  step_of_decode_ok hl (State.fetch_together hp) (decode_encode _)

theorem step_command {i : Instr} (hl : s.cfg.Legal = true) (hp : s.pending = .command w :: q)
    (hd : decode w = .ok i) : step s = exec i (s.setPending q) :=
  step_of_decode_ok hl (State.fetch_command hp) hd

/-- EDGE changes neither the parameters nor what is pending. -/
theorem exec_edge_environment (h : exec (.edge x) s = .next t) : t.cfg = s.cfg ∧ t.pending = s.pending := by
  cases execEdge_cases h with
  | uninit _ => exact ⟨rfl, rfl⟩
  | ignored _ _ => exact ⟨rfl, rfl⟩
  | executed s1 _ _ hb _ => exact ⟨hb.stored.cfg, hb.stored.pending⟩

theorem exec_receive_rsp {a : Word} (hi : s.initDone = true) (h : exec (.receive a) s = .next t) :
    t.rsp = some ⟨.ok, some s.frameRecord⟩ := by
  obtain ⟨hu, _⟩ | ⟨_, _, rfl⟩ := execReceive_cases a h
  · simp [hi] at hu
  · rfl

/-- Settles O7: the EDGE leaves the host command at the head of what is pending and the parameters legal, so the next
step executes it; a RECEIVE answers the record of the state it runs in. -/
theorem edgeGoesBeforeHostCommand : Obligations.EdgeGoesBeforeHostCommand := by
  intro s t x w q i hl hp hd
  have hedge : step s = exec (.edge x) (s.setPending (.command w :: q)) := step_together hl hp
  refine ⟨hedge, fun ht => ?_⟩
  rw [hedge] at ht
  obtain ⟨hcfg, hpending⟩ := exec_edge_environment ht
  have hhost : step t = exec i (t.setPending q) := step_command (by rwa [hcfg]) hpending hd
  refine ⟨hhost, ?receive⟩
  case receive =>
    rintro a u rfl hi hu
    have hti : t.initDone = true := (exec_edge_flagsKept ht).initDone.trans hi
    rw [← t.frameRecord_eq]
    exact exec_receive_rsp (s := t.setPending q) hti (hhost ▸ hu)

end Sys2Proof.Machine
end

section
/-! SUPPORT. The round trip of command words (30_encoding.md section 1), which bits of an argument a command reads
(R71), and what a step does with an arrival, without one, and with parameters outside R6 (00_scope.md R6, R7). -/

namespace Sys2Proof

theorem encode_eq_of_decode {w : CmdWord} {i : Instr} (h : decode w = .ok i) : encode i = w := by
  obtain ⟨hop, harg⟩ := decode_eq_ok_iff.1 h
  rw [encode, ← hop, ← harg, makeWord_fields]

/-- Settles O1: a word that decodes has the two fields of its command and is made of them; the fields of an encoding are
read back. -/
theorem decodeEncodeAgree : Obligations.DecodeEncodeAgree := by
  intro w i
  constructor
  · exact encode_eq_of_decode
  · rintro rfl
    exact Machine.decode_encode i

/-- Settles O3: the decoder evaluated on the seven words. -/
theorem writtenWordsDecode : Obligations.WrittenWordsDecode := ⟨rfl, rfl, rfl, rfl, rfl, rfl, rfl⟩

end Sys2Proof

namespace Sys2Proof.Machine

variable {s : State}

/-! ### A step that runs no command -/

theorem step_of_nothing_pending (hl : s.cfg.Legal = true) (hp : s.pending = []) : step s = .next s.openOutputs := by
  simp [step, hl, State.fetch_none.2 hp]

theorem step_of_not_legal (hl : s.cfg.Legal ≠ true) : step s = .refused .illegalConfig := if_neg hl

/-! ### No command is refused -/

theorem State.guarded_ne_refused {run : State → Host.Outcome State Fault Refusal} {r : Refusal}
    (h : run s.openOutputs ≠ .refused r) : s.guarded run ≠ .refused r := by
  unfold State.guarded
  split
  · exact h
  · nofun

/-- Every command of the block has its meaning (30_encoding.md R72). -/
theorem exec_ne_refused (i : Instr) (s : State) (r : Refusal) : exec i s ≠ .refused r := by
  cases i with
  | init a => nofun
  | setupRx a => rw [exec, execSetupRx_eq]; nofun
  | stopRx a => rw [exec, execStopRx_eq]; nofun
  | edge x =>
    rw [exec, execEdge]
    refine State.guarded_ne_refused ?_
    split
    · split <;> nofun
    · nofun
  | receive a =>
    rw [exec, execReceive]
    refine State.guarded_ne_refused ?_
    split <;> nofun

theorem step_ne_refused_of_legal (hl : s.cfg.Legal = true) (r : Refusal) : step s ≠ .refused r := by
  cases hf : s.fetch with
  | none => simp [step_of_nothing_pending hl (State.fetch_none.1 hf)]
  | some p =>
    obtain ⟨w, s1⟩ := p
    cases hd : decode w with
    | error e => simp [step_of_decode_error hl hf hd]
    | ok i => exact step_of_decode_ok hl hf hd ▸ exec_ne_refused i s1 r

/-! ### The argument bits -/

theorem exec_setupRx_congr {a b : Word} (h : a.getLsbD 0 = b.getLsbD 0) (s : State) :
    exec (.setupRx a) s = exec (.setupRx b) s := by
  have hmode : deliveryMode a = deliveryMode b := h
  rw [exec, exec, execSetupRx_eq, execSetupRx_eq, hmode]

theorem exec_edge_lastTs {x : Word} {t : State} (hi : s.initDone = true) (hr : s.rxEn = true)
    (h : exec (.edge x) s = .next t) : t.lastTs = x := by
  cases execEdge_cases h with
  | uninit hu => simp [hi] at hu
  | ignored _ hr' => simp [hr] at hr'
  | executed s1 _ _ hb _ => exact hb.stored.lastTs

/-! ### The statements -/

/-- Settles O5: three commands never read the argument, SETUP_RX reads its bit 0, the append of EDGE stores it whole. -/
theorem argumentBitsUsed : Obligations.ArgumentBitsUsed := fun a _ s =>
  ⟨rfl, rfl, rfl, fun h => exec_setupRx_congr h s, fun hi => ⟨_, exec_setupRx_of_init hi a, rfl⟩,
    fun _ => exec_edge_lastTs⟩

/-- Settles O6: the fetch takes the word off the queue, and a word that decodes is executed. -/
theorem stepRunsDecodedCommand : Obligations.StepRunsDecodedCommand := fun _ _ _ _ => step_command

/-- Settles O8: without an arrival the step only clears the outputs of the last command. -/
theorem waitsWithNothingPending : Obligations.WaitsWithNothingPending := fun _ => step_of_nothing_pending

/-- Settles O9: the check of the parameters is the only refusal of a step. -/
theorem illegalParametersAreRefused : Obligations.IllegalParametersAreRefused := by
  intro s
  rw [← Config.legal_iff]
  exact ⟨fun h hl => step_ne_refused_of_legal hl _ h, step_of_not_legal⟩

end Sys2Proof.Machine
end

section
/-! SUPPORT. What `Publish` writes (43_frame_decoder.md R152), the EDGE that hands over to an accepting sweep, the EDGE of
a short pulse (41_edge_timer_ring.md R103), and what each command leaves unchanged (10_state.md R30). -/

namespace Sys2Proof.Machine

variable {s s1 t : State} {x d : Word} {a : Accepted}

/-! ### Publish -/

/-- The frame registers of `t` are those of `s` after `Publish` of `a`, and so is the event. -/
structure FramePublished (s t : State) (a : Accepted) : Prop where
  fb : t.fb = s.fb.writeAll 0 (a.out.take a.nbytes)
  flen : t.flen = a.nbytes
  fproto : t.fproto = a.proto.id
  event : t.event = if s.pushEn = true then some a.record else s.event

theorem State.publish_framePublished (s : State) (a : Accepted) : FramePublished s (s.publish a) a :=
  ⟨s.publish_fb a, s.publish_flen a, s.publish_fproto a, s.publish_event a⟩

theorem FramePublished.read_of_le (h : FramePublished s t a) {j : Nat} (hj : a.nbytes ≤ j) :
    t.fb.read j = s.fb.read j := by
  rw [h.fb, Memory.read_writeAll, dif_neg]
  rw [List.length_take]
  omega

theorem FramePublished.read_of_lt (h : FramePublished s t a) (hlen : a.out.length = a.nbytes) {j : Nat}
    (hj : j < a.nbytes) : some (t.fb.read j) = a.out[j]? := by
  rw [h.fb, ← hlen, List.take_length, Memory.read_writeAll, dif_pos (by omega)]
  simp [hlen, hj]

theorem Accepted.record_of_length (hlen : a.out.length = a.nbytes) : a.record = ⟨a.nbytes, a.proto.id, a.out⟩ := by
  rw [Accepted.record, ← hlen, List.take_length]

/-- `Publish` writes the three frame registers and, in push mode, the event. -/
theorem State.publish_eq (s : State) (a : Accepted) :
    s.publish a = { s with
      fb := s.fb.writeAll 0 (a.out.take a.nbytes), fproto := a.proto.id, flen := a.nbytes,
      event := if s.pushEn = true then some a.record else s.event } := by
  unfold State.publish
  split <;> rfl

/-- Settles O49: `Publish` writes exactly the bytes of `out`, which are `nbytes` many. -/
theorem publishWritesFrame : Obligations.PublishWritesFrame := by
  intro s a hlen
  have hpub := s.publish_framePublished a
  exact ⟨fun _ => hpub.read_of_lt hlen, fun _ => hpub.read_of_le, _,
    Accepted.record_of_length hlen ▸ s.publish_eq a⟩

/-! ### The EDGE that hands over to an accepting sweep -/

/-- `EDGE x` measures `d` in `s`, is a match that reaches `RFCNSYNC`, and the sweep over the trace accepts `a` (R123). -/
structure HandsOver (s : State) (x d : Word) (a : Accepted) : Prop where
  measures : EdgeMeasures s x d
  candidate : 5000 < d.toNat
  cap_pos : 0 < s.cfg.traceCap
  idx_le : s.idx ≤ s.cfg.traceCap
  near : ((d.toNat : Int) - (s.tr.read 0).toNat).natAbs < 200
  threshold : s.cnt.toNat + 1 = s.cfg.rfcnsync
  sweep : sweepResult s.cfg.maxBytes s.tr (s.idx - 1) = some a

/-- Such an EDGE publishes the frame, clears the counter and stores the pulse in `tr[0]` (R124, R127, R152). -/
theorem HandsOver.exec_edge (h : HandsOver s x d a) :
    ∃ t, exec (.edge x) s = .next t ∧ EdgeStored s t x d 0 ∧ t.cnt = 0 ∧ FramePublished s.openOutputs t a := by
  have hb : EdgeBranch s.openOutputs d
      (((s.openOutputs.setCnt s.openOutputs.matchCount).publish a).setCnt 0).restart :=
    .decoded a ((isCandidate_iff d).2 h.candidate) ((State.isMatch_iff_natAbs d).2 h.near) h.threshold
      ((Nat.sub_le _ _).trans h.idx_le) h.sweep
  obtain ⟨hfb, hflen, hfproto, hevent⟩ :=
    State.publish_framePublished (s.openOutputs.setCnt s.openOutputs.matchCount) a
  exact ⟨_, hb.exec_edge h.measures h.cap_pos, hb.stored, rfl, hfb, hflen, hfproto, hevent⟩

/-- The sweep answers the decode of the first protocol that accepts (R140). -/
theorem sweepResult_of_first {maxBytes n k : Nat} {tr : Memory 32} {p : Proto} {out : List Byte}
    (hp : decodeFrame maxBytes tr p n = .accept out k)
    (hq : ∀ q, q.id.toNat < p.id.toNat → decodeFrame maxBytes tr q n = .reject) :
    sweepResult maxBytes tr n = some ⟨p, out, k⟩ := by
  obtain ⟨a, ha, rfl⟩ := (sweepResult_proto_iff maxBytes tr n p).2 ⟨⟨out, k, hp⟩, hq⟩
  have hdec := sweepResult_some ha
  rw [hp] at hdec
  injection hdec with hout hk
  rw [ha, hout, hk]

/-- Settles O30: the first protocol that accepts fixes the sweep's result, and the hand-over publishes it. -/
theorem edgeDecodesFrame : Obligations.EdgeDecodesFrame := by
  intro s x d p out k hm hd hcap hidx hnear hn hp hq
  have hs := sweepResult_of_first hp hq
  have hlen : out.length = k := (sweepResult_bounds hs).2.2
  obtain ⟨t, ht, hstored, hcnt, hpub⟩ := HandsOver.exec_edge ⟨hm, hd, hcap, hidx, hnear, hn, hs⟩
  refine ⟨t, ht, hstored, hcnt, hpub.flen, hpub.fproto, fun _ => hpub.read_of_lt hlen, fun _ => hpub.read_of_le,
    ?event⟩
  case event => rw [hpub.event, Accepted.record_of_length hlen]; rfl

/-! ### The EDGE of a short pulse -/

/-- Settles O25: a short pulse with room takes the path that changes nothing before the append. -/
theorem edgeShortPulse : Obligations.EdgeShortPulse := by
  intro s x d hm hd hidx
  have hb : EdgeBranch s.openOutputs d s.openOutputs :=
    .short ((isCandidate_eq_false_iff d).2 hd) (State.traceFull_eq_false_iff.2 hidx)
  exact ⟨_, hb.exec_edge hm (Nat.zero_lt_of_lt hidx), hb.stored, rfl, ⟨fun _ => rfl, rfl, rfl, rfl⟩⟩

/-- Settles O13: the append needs an entry below the capacity and leaves `idx` just past it. -/
theorem executedEdgeLeavesEntry : Obligations.ExecutedEdgeLeavesEntry := by
  intro s t x hi hr h
  cases execEdge_cases h with
  | uninit hu => simp [hi] at hu
  | ignored _ hr' => simp [hr] at hr'
  | executed s1 _ _ _ hx => exact ⟨Nat.succ_pos s1.idx, hx⟩

/-! ### What EDGE leaves unchanged -/

theorem EdgeBranch.idx_eq_edgeIndex (hb : EdgeBranch s.openOutputs (s.duration x) s1) : s1.idx = s.edgeIndex x := by
  cases hb with
  | short hc hf =>
    have hf' : s.traceFull = false := hf
    simp [State.edgeIndex, hc, hf']
  | overflow hc hf =>
    have hf' : s.traceFull = true := hf
    simp [State.edgeIndex, hf']
  | mismatch hc _ => simp [State.edgeIndex, hc]
  | belowThreshold hc _ _ => simp [State.edgeIndex, hc]
  | decodeFail hc _ _ _ _ => simp [State.edgeIndex, hc]
  | decoded a hc _ _ _ _ => simp [State.edgeIndex, hc]

/-- The frame registers of both states are the same. -/
def FrameRegistersKept (s t : State) : Prop :=
  (∀ j, t.fb.read j = s.fb.read j) ∧ t.flen = s.flen ∧ t.fproto = s.fproto

/-- What the paths of EDGE do to the frame registers: they stay, or the sweep's frame is published. -/
theorem EdgeBranch.frame_cases (hb : EdgeBranch s d s1) :
    FrameRegistersKept s s1 ∨
      ∃ a, sweepResult s.cfg.maxBytes s.tr s.handOverLen = some a ∧ isCandidate d = true ∧ s.isMatch d = true ∧
        s.matchCount = s.cfg.rfcnsync ∧ FramePublished s s1 a := by
  cases hb with
  | decoded a hc hm hn _ hs =>
    obtain ⟨hfb, hflen, hfproto, hevent⟩ := State.publish_framePublished (s.setCnt s.matchCount) a
    exact .inr ⟨a, hs, hc, hm, hn, hfb, hflen, hfproto, hevent⟩
  | _ => exact .inl ⟨fun _ => rfl, rfl, rfl⟩

theorem EdgeBranch.frame_kept (hb : EdgeBranch s.openOutputs (s.duration x) s1) (hr : s.rxEn = true)
    (hne : ∀ p, s.edgeLabel x ≠ .decoded p) : FrameRegistersKept s s1 := by
  obtain hkept | ⟨a, hs, hc, hm, hn, -⟩ := hb.frame_cases
  · exact hkept
  · exact absurd (State.edgeLabel_of_decoded hr hc hm hn hs) (hne a.proto)

theorem EdgeBranch.read_of_flen_le (hb : EdgeBranch s.openOutputs d s1) {j : Nat} (hj : s1.flen ≤ j) :
    s1.fb.read j = s.fb.read j := by
  obtain ⟨hfb, -, -⟩ | ⟨a, -, -, -, -, hpub⟩ := hb.frame_cases
  · exact hfb j
  · exact hpub.read_of_le (hpub.flen ▸ hj)

/-- An EDGE before INIT or with reception disabled writes no register (R101, R204). -/
theorem exec_edge_disabled (h : exec (.edge x) s = .next t) (hoff : s.initDone = false ∨ s.rxEn = false) :
    (∀ k, t.tr.read k = s.tr.read k) ∧ t.idx = s.idx ∧ t.cnt = s.cnt ∧ t.lastTs = s.lastTs := by
  cases execEdge_cases h with
  | uninit _ => exact ⟨fun _ => rfl, rfl, rfl, rfl⟩
  | ignored _ _ => exact ⟨fun _ => rfl, rfl, rfl, rfl⟩
  | executed s1 hi hr _ _ => simp [hi, hr] at hoff

theorem exec_edge_trace_kept (h : exec (.edge x) s = .next t) {k : Nat} (hk : k ≠ s.edgeIndex x) :
    t.tr.read k = s.tr.read k := by
  cases execEdge_cases h with
  | uninit _ => rfl
  | ignored _ _ => rfl
  | executed s1 _ _ hb _ => exact hb.stored.others k (hb.idx_eq_edgeIndex ▸ hk)

theorem exec_edge_frame_kept (h : exec (.edge x) s = .next t)
    (hne : s.initDone = false ∨ ∀ p, s.edgeLabel x ≠ .decoded p) : FrameRegistersKept s t := by
  cases execEdge_cases h with
  | uninit _ => exact ⟨fun _ => rfl, rfl, rfl⟩
  | ignored _ _ => exact ⟨fun _ => rfl, rfl, rfl⟩
  | executed s1 hi hr hb _ => exact hb.frame_kept hr (hne.resolve_left (by simp [hi]))

theorem exec_edge_read_of_flen_le (h : exec (.edge x) s = .next t) {j : Nat} (hj : t.flen ≤ j) :
    t.fb.read j = s.fb.read j := by
  cases execEdge_cases h with
  | uninit _ => rfl
  | ignored _ _ => rfl
  | executed s1 _ _ hb _ => exact hb.read_of_flen_le hj

/-! ### What every command leaves unchanged -/

/-- No command changes the parameters or the arrivals (R34, R208). -/
theorem exec_environment {i : Instr} (h : exec i s = .next t) : t.cfg = s.cfg ∧ t.pending = s.pending := by
  cases i with
  | init a => simp [exec_init_next h]
  | setupRx a => rw [exec_setupRx_next h]; split <;> simp
  | stopRx a => rw [exec_stopRx_next h]; split <;> simp
  | edge x => exact exec_edge_environment h
  | receive a => obtain ⟨_, rfl⟩ | ⟨_, _, rfl⟩ := execReceive_cases a h <;> simp

/-- Settles O15: a step is a wait, an illegal word or a command, and none of them writes `cfg`. -/
theorem parametersNeverChange : Obligations.ParametersNeverChange := by
  intro s t h
  obtain ⟨-, ha⟩ := step_cases h
  cases ha with
  | waits _ => rfl
  | illegal w s1 hf e _ =>
    obtain ⟨q, rfl⟩ := State.fetch_some hf
    rfl
  | runs w s1 _ i hf _ hx =>
    obtain ⟨q, rfl⟩ := State.fetch_some hf
    exact (exec_environment hx).1

/-- Settles O35: each command by the state it answers, EDGE by the path it takes. -/
theorem commandFrames : Obligations.CommandFrames := by
  intro s t i h
  obtain ⟨hcfg, hpending⟩ := exec_environment h
  refine ⟨hcfg, hpending, ?init, ?reception, ?receive, ?edge⟩
  case init =>
    rintro a rfl
    simp [exec_init_next h]
  case reception =>
    rintro a (rfl | rfl)
    · rw [exec_setupRx_next h]; split <;> simp
    · rw [exec_stopRx_next h]; split <;> simp
  case receive =>
    rintro a rfl
    obtain ⟨_, rfl⟩ | ⟨_, _, rfl⟩ := execReceive_cases a h <;> simp
  case edge =>
    rintro x rfl
    obtain ⟨hinit, hrx, hpush⟩ := exec_edge_flagsKept h
    exact ⟨hinit, hrx, hpush, exec_edge_disabled h, fun _ => exec_edge_trace_kept h, exec_edge_frame_kept h,
      fun _ => exec_edge_read_of_flen_le h⟩

end Sys2Proof.Machine
end

section
/-! SUPPORT. The invariant of 10_state.md R33: it holds after reset, every operation keeps it, and under it every command
has a next state. -/

namespace Sys2Proof.Machine

variable {s s1 t : State} {d : Word}

/-! ### Operations that keep the invariant -/

theorem State.Inv.openOutputs (h : s.Inv) : s.openOutputs.Inv := { h with }

theorem State.Inv.setPending (h : s.Inv) (q : List Arrival) : (s.setPending q).Inv := { h with }

theorem State.Inv.respond (h : s.Inv) (st : Status) (f : Option FrameRecord) : (s.respond st f).Inv := { h with }

theorem State.Inv.raise (h : s.Inv) (f : InterfaceFault) : (s.raise f).Inv := { h with }

theorem State.Inv.setInit (h : s.Inv) : s.setInit.Inv := { h with rx_init := fun _ => rfl }

theorem State.Inv.setReception (h : s.Inv) (hi : s.initDone = true) {en push : Bool} (hp : push = true → en = true) :
    (s.setReception en push).Inv :=
  { h with rx_init := fun _ => hi, push_rx := hp }

/-- A cleared trace reads 0 everywhere and its counter is below every legal `RFCNSYNC` (R35, R170). -/
theorem State.Inv.clearTrace (h : s.Inv) : s.clearTrace.Inv :=
  { h with
    idx_le := Nat.zero_le _
    trace_zero := fun _ => Memory.read_nil
    cnt_lt := Nat.zero_lt_of_lt h.cnt_lt
    tr_wf := Memory.wf_nil
    tr_within := Memory.within_nil _ }

theorem State.Inv.setLen_zero (h : s.Inv) : (s.setLen 0).Inv :=
  { h with flen_le := Nat.zero_le _, proto_valid := fun hne => absurd rfl hne }

/-! ### The invariant after EDGE -/

/-- I4 on every path: a match below the threshold stays below it, a hand-over and an overflow clear the counter. -/
theorem EdgeBranch.cnt_lt (hb : EdgeBranch s d s1) (h : s.Inv) : s1.cnt.toNat < s.cfg.rfcnsync := by
  have hlt := h.cnt_lt
  cases hb with
  | short _ _ => exact hlt
  | overflow _ _ => exact Nat.zero_lt_of_lt hlt
  | mismatch _ _ => exact hlt
  | belowThreshold _ _ hn =>
    have hlt' : s.matchCount < s.cfg.rfcnsync := Nat.lt_of_le_of_ne hlt hn
    exact (State.toNat_cnt_setCnt_matchCount h.legal hlt').trans_lt hlt'
  | decodeFail _ _ _ _ _ => exact Nat.zero_lt_of_lt hlt
  | decoded a _ _ _ _ _ => exact Nat.zero_lt_of_lt hlt

/-- The frame registers are as I5 and the storage form ask, for a frame buffer of `maxBytes` bytes. -/
structure FrameValid (maxBytes : Nat) (s : State) : Prop where
  flen_le : s.flen ≤ maxBytes
  proto_valid : s.flen ≠ 0 → s.fproto = 1 ∨ s.fproto = 2 ∨ s.fproto = 3
  fb_wf : s.fb.wf = true
  fb_within : s.fb.within maxBytes = true

theorem State.Inv.frameValid (h : s.Inv) : FrameValid s.cfg.maxBytes s :=
  ⟨h.flen_le, h.proto_valid, h.fb_wf, h.fb_within⟩

/-- An accepted frame fits the buffer and has one of the three protocol ids (R151, R152). -/
theorem FrameValid.publish {a : Accepted} {n : Nat} (h : FrameValid s.cfg.maxBytes s)
    (hs : sweepResult s.cfg.maxBytes s.tr n = some a) : FrameValid s.cfg.maxBytes (s.publish a) := by
  obtain ⟨-, hle, hlen⟩ := sweepResult_bounds hs
  refine ⟨?_, fun _ => ?_, ?_, ?_⟩
  · rwa [State.publish_flen]
  · rw [State.publish_fproto]
    exact a.proto.id_ne_zero
  · rw [State.publish_fb]
    exact Memory.wf_writeAll _ _ _ h.fb_wf
  · rw [State.publish_fb, Accepted.take_out hs]
    exact Memory.within_writeAll _ _ _ h.fb_within (by omega)

theorem EdgeBranch.frameValid (hb : EdgeBranch s d s1) (h : FrameValid s.cfg.maxBytes s) :
    FrameValid s.cfg.maxBytes s1 := by
  cases hb with
  | decoded a _ _ _ _ hs =>
    obtain ⟨hlen, hproto, hwf, hwithin⟩ := FrameValid.publish (s := s.setCnt s.matchCount) { h with } hs
    exact ⟨hlen, hproto, hwf, hwithin⟩
  | _ => exact { h with }

/-- The state before the append need not meet I2, which the append restores by leaving `idx` above 0. -/
theorem EdgeBranch.inv_store (hb : EdgeBranch s d s1) (h : s.Inv) (hx : s1.idx < s1.cfg.traceCap) (x : Word) :
    (s1.store d x).Inv := by
  obtain ⟨hcfg, hinit, hrx, hpush, htr, -⟩ := hb.frame
  obtain ⟨hlen, hproto, hwf, hwithin⟩ := hb.frameValid h.frameValid
  exact {
    legal := by simpa [hcfg] using h.legal
    idx_le := hx
    trace_zero := fun h0 => absurd h0 (Nat.succ_ne_zero _)
    cnt_lt := by simpa [hcfg] using hb.cnt_lt h
    flen_le := by simpa [hcfg] using hlen
    proto_valid := hproto
    rx_init := by simpa [hinit, hrx] using h.rx_init
    push_rx := by simpa [hrx, hpush] using h.push_rx
    tr_wf := Memory.wf_write _ _ _ (htr ▸ h.tr_wf)
    tr_within := Memory.within_write _ _ _ (by simpa [htr, hcfg] using h.tr_within) hx
    fb_wf := hwf
    fb_within := by simpa [hcfg] using hwithin }

/-! ### Every command and every step -/

theorem exec_keeps_inv {i : Instr} (h : exec i s = .next t) (hinv : s.Inv) : t.Inv := by
  cases i with
  | init a => exact exec_init_next h ▸ (hinv.openOutputs.setInit.respond _ _)
  | setupRx a =>
    obtain rfl := exec_setupRx_next h
    split
    · next hi => exact (hinv.openOutputs.clearTrace.setReception hi fun _ => rfl).respond _ _
    · exact hinv.raise _
  | stopRx a =>
    obtain rfl := exec_stopRx_next h
    split
    · next hi => exact (hinv.openOutputs.clearTrace.setReception hi id).respond _ _
    · exact hinv.raise _
  | edge x =>
    cases execEdge_cases h with
    | uninit _ => exact hinv.raise _
    | ignored _ _ => exact hinv.openOutputs.respond _ _
    | executed s1 _ _ hb hx => exact (hb.inv_store hinv.openOutputs hx x).respond _ _
  | receive a =>
    obtain ⟨_, rfl⟩ | ⟨_, _, rfl⟩ := execReceive_cases a h
    · exact hinv.raise _
    · exact hinv.openOutputs.setLen_zero.respond _ _

/-- After reset every register is 0 and both storage spaces list nothing (R35). -/
theorem State.resetWith_inv {c : Config} (hc : c.Legal = true) : (State.resetWith c).Inv where
  legal := hc
  idx_le := Nat.zero_le _
  trace_zero := fun _ => Memory.read_nil
  cnt_lt := by
    obtain ⟨hsync, -⟩ := Config.legal_iff.1 hc
    show 0 < c.rfcnsync
    omega
  flen_le := Nat.zero_le _
  proto_valid := fun hne => absurd rfl hne
  rx_init := nofun
  push_rx := nofun
  tr_wf := Memory.wf_nil
  tr_within := Memory.within_nil _
  fb_wf := Memory.wf_nil
  fb_within := Memory.within_nil _

/-! ### The statements -/

/-- Settles O11: the parameters of `State.reset` are legal. -/
theorem resetMeetsInvariant : Obligations.ResetMeetsInvariant :=
  ⟨fun _ => State.resetWith_inv, State.resetWith_inv (by decide)⟩

/-- Settles O12: a wait and an illegal word touch the outputs, the mark and the arrivals only, and every command keeps
the invariant. -/
theorem stepKeepsInvariant : Obligations.StepKeepsInvariant := by
  intro s t hinv h
  obtain ⟨-, ha⟩ := step_cases h
  cases ha with
  | waits _ => exact hinv.openOutputs
  | illegal w s1 hf e _ =>
    obtain ⟨q, rfl⟩ := State.fetch_some hf
    exact (hinv.setPending q).raise _
  | runs w s1 _ i hf _ hx =>
    obtain ⟨q, rfl⟩ := State.fetch_some hf
    exact exec_keeps_inv hx (hinv.setPending q)

/-- A register of the width R6 gives for the capacity `c` holds every number up to `c`. -/
theorem lt_two_pow_clog {n c : Nat} (h : n ≤ c) : n < 2 ^ Nat.clog 2 (c + 1) :=
  (Nat.lt_succ_of_le h).trans_le (Nat.le_pow_clog (by decide) _)

/-- Settles O14: I1 and I5 bound the two registers by their capacities. -/
theorem registersFitTheirWidths : Obligations.RegistersFitTheirWidths := fun _ hinv =>
  ⟨lt_two_pow_clog hinv.idx_le, lt_two_pow_clog hinv.flen_le⟩

/-- Settles O31: I1 keeps EDGE within the trace and I5 keeps RECEIVE within the frame bytes; the other commands answer
a state always. -/
theorem everyCommandCompletes : Obligations.EveryCommandCompletes := by
  intro s i hinv
  cases i with
  | init a => exact ⟨_, exec_init_eq s a⟩
  | setupRx a => exact ⟨_, execSetupRx_eq a⟩
  | stopRx a => exact ⟨_, execStopRx_eq a⟩
  | edge x =>
    obtain ⟨-, hcap, -⟩ := Config.legal_iff.1 hinv.legal
    obtain ⟨t, ht⟩ := EdgeAnswer.exists (by omega) hinv.idx_le x
    exact ⟨t, ht.execEdge⟩
  | receive a =>
    cases hi : s.initDone with
    | false => exact ⟨_, exec_of_uninit hi nofun⟩
    | true => exact ⟨_, exec_receive_of_init hi hinv.flen_le a⟩

end Sys2Proof.Machine
end

section
/-! SUPPORT. Which trace entries `Decode` depends on (43_frame_decoder.md R141), and that stale storage is never
observable (10_state.md R21, R22): every operation and every command answers alike states alike. -/

namespace Sys2Proof.Machine

variable {s s' s1 t : State} {d x : Word}

/-! ### Decode reads the valid entries only -/

theorem decodeFrame_congr {maxBytes n : Nat} {tr tr' : Memory 32} (p : Proto)
    (h : ∀ i, i < n → tr.read i = tr'.read i) : decodeFrame maxBytes tr p n = decodeFrame maxBytes tr' p n := by
  cases n with
  | zero => rfl
  | succ n =>
    have href : refUnit tr p = refUnit tr' p := by rw [refUnit, refUnit, h 0 (Nat.succ_pos n)]
    rw [decodeFrame, decodeFrame, href, scan_congr _ _ _ _ _ _ _ _ _ h]

/-- Settles O47: with an entry to read the reference unit is the same and so is every pair of the scan. -/
theorem decodeReadsValidEntriesOnly : Obligations.DecodeReadsValidEntriesOnly := fun _ _ _ p _ => decodeFrame_congr p

theorem sweepResult_congr {maxBytes n : Nat} {tr tr' : Memory 32} (h : ∀ i, i < n → tr.read i = tr'.read i) :
    sweepResult maxBytes tr n = sweepResult maxBytes tr' n := by
  rw [sweepResult_eq, sweepResult_eq, decodeFrame_congr .v1 h, decodeFrame_congr .v2 h, decodeFrame_congr .v3 h]

/-! ### Operations that keep states alike -/

namespace State.Alike

theorem openOutputs (h : s.Alike s') : s.openOutputs.Alike s'.openOutputs := { h with rsp := rfl, event := rfl }

theorem setPending (h : s.Alike s') (q : List Arrival) : (s.setPending q).Alike (s'.setPending q) :=
  { h with pending := rfl }

theorem respond (h : s.Alike s') (st : Status) (f : Option FrameRecord) :
    (s.respond st f).Alike (s'.respond st f) :=
  { h with rsp := rfl }

theorem raise (h : s.Alike s') (f : InterfaceFault) : (s.raise f).Alike (s'.raise f) :=
  { h with rsp := rfl, event := rfl, faulted := rfl }

theorem setInit (h : s.Alike s') : s.setInit.Alike s'.setInit := { h with initDone := rfl }

theorem setReception (h : s.Alike s') (en push : Bool) : (s.setReception en push).Alike (s'.setReception en push) :=
  { h with rxEn := rfl, pushEn := rfl }

theorem clearTrace (h : s.Alike s') : s.clearTrace.Alike s'.clearTrace :=
  { h with tr := fun _ _ => rfl, idx := rfl, cnt := rfl, lastTs := rfl }

theorem setCnt (h : s.Alike s') (c : Nat) : (s.setCnt c).Alike (s'.setCnt c) := { h with cnt := rfl }

/-- With `flen` = 0 every frame byte is stale. -/
theorem setLen_zero (h : s.Alike s') : (s.setLen 0).Alike (s'.setLen 0) :=
  { h with fb := fun _ hj => absurd hj (Nat.not_lt_zero _), flen := rfl }

/-- With `idx` = 0 every trace entry but `tr[0]` is stale. -/
theorem restart (h : s.Alike s') : s.restart.Alike s'.restart :=
  { h with tr := fun i hi => h.tr i (.inr (hi.resolve_left (Nat.not_lt_zero i))), idx := rfl }

/-- The append makes the entry it writes valid, so it is no longer stale. -/
theorem store (h : s.Alike s') (d x : Word) : (s.store d x).Alike (s'.store d x) :=
  { h with
    tr := fun i hi => by
      show (s'.tr.write s'.idx d).read i = (s.tr.write s.idx d).read i
      rw [h.idx, Memory.read_write, Memory.read_write]
      split
      · rfl
      · next hne =>
        have hi' : i < s.idx + 1 ∨ i = 0 := hi
        exact h.tr i (by omega)
    idx := congrArg (· + 1) h.idx
    lastTs := rfl }

/-- `Publish` writes every byte below the new `flen`. -/
theorem publish (h : s.Alike s') {a : Accepted} (hlen : a.out.length = a.nbytes) :
    (s.publish a).Alike (s'.publish a) where
  cfg := by simpa using h.cfg
  initDone := by simpa using h.initDone
  rxEn := by simpa using h.rxEn
  pushEn := by simpa using h.pushEn
  tr := by simpa using h.tr
  idx := by simpa using h.idx
  cnt := by simpa using h.cnt
  lastTs := by simpa using h.lastTs
  fb := fun j hj => by
    have hj' : j < a.nbytes := by simpa using hj
    have hread := (s'.publish_framePublished a).read_of_lt hlen hj'
    rw [← (s.publish_framePublished a).read_of_lt hlen hj'] at hread
    exact Option.some.inj hread
  flen := by simp
  fproto := by simp
  rsp := by simpa using h.rsp
  event := by simp [h.pushEn, h.event]
  faulted := by simpa using h.faulted
  pending := by simpa using h.pending

/-! ### What a command reads of alike states -/

theorem duration_eq (h : s.Alike s') (x : Word) : s'.duration x = s.duration x := by
  rw [State.duration, State.duration, h.lastTs]

theorem traceFull_eq (h : s.Alike s') : s'.traceFull = s.traceFull := by
  rw [State.traceFull, State.traceFull, h.idx, h.cfg]

/-- The match test reads `tr[0]`, which is never stale (R21). -/
theorem isMatch_eq (h : s.Alike s') (d : Word) : s'.isMatch d = s.isMatch d := by
  rw [State.isMatch, State.isMatch, h.tr 0 (.inr rfl)]

theorem matchCount_eq (h : s.Alike s') : s'.matchCount = s.matchCount := by
  rw [State.matchCount, State.matchCount, h.cnt]

theorem handOverLen_eq (h : s.Alike s') : s'.handOverLen = s.handOverLen := by
  rw [State.handOverLen, State.handOverLen, h.idx]

/-- The sweep gets entries below `idx` only (R124). -/
theorem sweepResult_eq (h : s.Alike s') :
    sweepResult s'.cfg.maxBytes s'.tr s'.handOverLen = sweepResult s.cfg.maxBytes s.tr s.handOverLen := by
  rw [h.cfg, h.handOverLen_eq]
  exact sweepResult_congr fun i hi => h.tr i (.inl (Nat.lt_of_lt_of_le hi (Nat.sub_le _ _)))

/-- RECEIVE returns the bytes below `flen` only (R172). -/
theorem frameRecord_eq (h : s.Alike s') : s'.frameRecord = s.frameRecord := by
  rw [State.frameRecord_eq, State.frameRecord_eq, h.flen, h.fproto]
  congr 1
  exact List.map_congr_left fun j hj => h.fb j (List.mem_range.1 hj)

/-! ### Commands and steps of alike states -/

/-- Alike states take the same path of EDGE, to alike states. -/
theorem edgeBranch (h : s.Alike s') (hb : EdgeBranch s d s1) : ∃ s1', EdgeBranch s' d s1' ∧ s1.Alike s1' := by
  have hm := h.isMatch_eq d
  have hn : s'.matchCount = s'.cfg.rfcnsync ↔ s.matchCount = s.cfg.rfcnsync := by rw [h.matchCount_eq, h.cfg]
  have hl : s'.handOverLen ≤ s'.cfg.traceCap ↔ s.handOverLen ≤ s.cfg.traceCap := by rw [h.handOverLen_eq, h.cfg]
  have hcnt : (s.setCnt s.matchCount).Alike (s'.setCnt s'.matchCount) := h.matchCount_eq ▸ h.setCnt _
  cases hb with
  | short hc hf => exact ⟨_, .short hc (h.traceFull_eq.trans hf), h⟩
  | overflow hc hf => exact ⟨_, .overflow hc (h.traceFull_eq.trans hf), h.restart.setCnt 0⟩
  | mismatch hc hm' => exact ⟨_, .mismatch hc (hm.trans hm'), h.restart⟩
  | belowThreshold hc hm' hn' => exact ⟨_, .belowThreshold hc (hm.trans hm') (mt hn.1 hn'), hcnt.restart⟩
  | decodeFail hc hm' hn' hl' hs =>
    exact ⟨_, .decodeFail hc (hm.trans hm') (hn.2 hn') (hl.2 hl') (h.sweepResult_eq.trans hs),
      (hcnt.setCnt 0).restart⟩
  | decoded a hc hm' hn' hl' hs =>
    exact ⟨_, .decoded a hc (hm.trans hm') (hn.2 hn') (hl.2 hl') (h.sweepResult_eq.trans hs),
      ((hcnt.publish (sweepResult_bounds hs).2.2).setCnt 0).restart⟩

theorem edgeAnswer (h : s.Alike s') (ha : EdgeAnswer s x t) : ∃ t', EdgeAnswer s' x t' ∧ t.Alike t' := by
  cases ha with
  | uninit hi => exact ⟨_, .uninit (h.initDone.trans hi), h.raise _⟩
  | ignored hi hr => exact ⟨_, .ignored (h.initDone.trans hi) (h.rxEn.trans hr), h.openOutputs.respond _ _⟩
  | executed s1 hi hr hb hx =>
    rw [← h.duration_eq] at hb ⊢
    obtain ⟨s1', hb', h1⟩ := h.openOutputs.edgeBranch hb
    exact ⟨_, .executed s1' (h.initDone.trans hi) (h.rxEn.trans hr) hb' (by rwa [h1.idx, h1.cfg]),
      (h1.store _ x).respond _ _⟩

theorem exec {i : Instr} (h : s.Alike s') (ht : Machine.exec i s = .next t) :
    ∃ t', Machine.exec i s' = .next t' ∧ t.Alike t' := by
  cases i with
  | init a => exact ⟨_, exec_init_eq s' a, exec_init_next ht ▸ h.openOutputs.setInit.respond _ _⟩
  | setupRx a =>
    refine ⟨_, execSetupRx_eq a, ?_⟩
    rw [exec_setupRx_next ht, h.initDone]
    split
    · exact (h.openOutputs.clearTrace.setReception _ _).respond _ _
    · exact h.raise _
  | stopRx a =>
    refine ⟨_, execStopRx_eq a, ?_⟩
    rw [exec_stopRx_next ht, h.initDone]
    split
    · exact (h.openOutputs.clearTrace.setReception _ _).respond _ _
    · exact h.raise _
  | edge x =>
    obtain ⟨t', ha, hk⟩ := h.edgeAnswer (execEdge_cases ht)
    exact ⟨t', ha.execEdge, hk⟩
  | receive a =>
    obtain ⟨hu, rfl⟩ | ⟨hi, hl, rfl⟩ := execReceive_cases a ht
    · exact ⟨_, exec_of_uninit (h.initDone.trans hu) nofun, h.raise _⟩
    · exact ⟨_, exec_receive_of_init (h.initDone.trans hi) (by rwa [h.flen, h.cfg]) a,
        h.frameRecord_eq ▸ h.openOutputs.setLen_zero.respond _ _⟩

/-- Alike states have the same arrivals, so they fetch the same word. -/
theorem fetch {w : CmdWord} (h : s.Alike s') (hf : s.fetch = some (w, s1)) :
    ∃ s1', s'.fetch = some (w, s1') ∧ s1.Alike s1' := by
  unfold State.fetch at hf ⊢
  rw [h.pending]
  split at hf <;> cases hf
  · exact ⟨_, rfl, h.setPending _⟩
  · exact ⟨_, rfl, h.setPending _⟩

end State.Alike

/-- Settles O36: alike states fetch the same word, and the wait, the illegal word and every command keep them alike. -/
theorem staleStorageIsNotObservable : Obligations.StaleStorageIsNotObservable := by
  intro s s' t h ht
  obtain ⟨hlegal, ha⟩ := step_cases ht
  have hlegal' : s'.cfg.Legal = true := h.cfg ▸ hlegal
  cases ha with
  | waits hp => exact ⟨_, step_of_nothing_pending hlegal' (h.pending.trans hp), h.openOutputs⟩
  | illegal w s1 hf e hd =>
    obtain ⟨s1', hf', h1⟩ := h.fetch hf
    exact ⟨_, step_of_decode_error hlegal' hf' hd, h1.raise _⟩
  | runs w s1 _ i hf hd hx =>
    obtain ⟨s1', hf', h1⟩ := h.fetch hf
    rw [step_of_decode_ok hlegal' hf' hd]
    exact h1.exec hx

end Sys2Proof.Machine
end

section
/-! SUPPORT. The statements on the reference unit and the walk of `Decode` (43_frame_decoder.md R142 to R151), and the
delivery of a V1 frame with jitter (43_frame_decoder.md section 6). -/

namespace Sys2Proof.Machine

variable {k : Nat} {tr : Memory 32} {bytes : List Byte} {s t : State}

/-! ### The reference unit -/

theorem Proto.syncLo_pos (p : Proto) : 0 < p.entry.syncLo := by cases p <;> decide

/-- `u` is one of the four unit counts of the data symbols of `p` (R90). -/
def Proto.DataUnits (p : Proto) (u : Nat) : Prop :=
  u = p.entry.oneHi ∨ u = p.entry.oneLo ∨ u = p.entry.zeroHi ∨ u = p.entry.zeroLo

theorem Proto.DataUnits.lt_syncLo {p : Proto} {u : Nat} (hu : p.DataUnits u) : u < p.entry.syncLo := by
  obtain rfl | rfl | rfl | rfl := hu <;> cases p <;> decide

/-- The window centre of a data symbol lies below `tr[0]`, of which `ref * sync_lo` is at most the whole. -/
theorem refUnit_mul_lt {p : Proto} {u : Nat} (hu : p.DataUnits u) (h0 : tr.read 0 ≠ 0) :
    refUnit tr p * u < (tr.read 0).toNat := by
  have hpos : 0 < (tr.read 0).toNat := Nat.pos_of_ne_zero fun h => h0 (BitVec.eq_of_toNat_eq h)
  obtain href | href := Nat.eq_zero_or_pos (refUnit tr p)
  · rwa [href, Nat.zero_mul]
  · exact ((Nat.mul_lt_mul_left href).2 hu.lt_syncLo).trans_le (Nat.div_mul_le_self _ _)

/-- Settles O41: the bounds of the two floor divisions, and the unit counts of the table. -/
theorem referenceUnitAndTolerance : Obligations.ReferenceUnitAndTolerance := by
  intro tr p
  have hfloor : (tr.read 0).toNat < (refUnit tr p + 1) * p.entry.syncLo :=
    Nat.lt_mul_of_div_lt (Nat.lt_succ_self _) p.syncLo_pos
  have htol : refUnit tr p ≤ 2 * tolerance (refUnit tr p) + 1 := by
    rw [tolerance]
    omega
  exact ⟨by cases p <;> decide, Nat.div_mul_le_self _ _, hfloor, Nat.mul_div_le _ _, htol, fun _ => refUnit_mul_lt⟩

/-! ### The walk -/

/-- Settles O44: the spec of `Decode`, whose bits are the bits of the frame. -/
theorem decodeWalk : Obligations.DecodeWalk := by
  intro maxBytes tr p n
  obtain ⟨b, out, hbits, hdec⟩ := decodeFrame_spec maxBytes tr p n
  have hle : b ≤ 8 * maxBytes := by
    by_contra hgt
    have := (hbits.taken (b - 1) (by omega)).2.1
    omega
  refine ⟨b, out, fun k hk => ?taken, hle, ?stop, hbits.pad, hbits.len, ?result⟩
  case taken =>
    obtain ⟨hn, -, hs⟩ := hbits.taken k hk
    exact ⟨hn, hs⟩
  case stop => exact hbits.stop.imp_right (Or.imp_left (Nat.le_antisymm hle))
  case result =>
    have hreject : b < 8 ↔ 2 * b < 15 := by omega
    have hcount : (b + 7) / 8 = (2 * b + 14) / 16 := by omega
    rw [hdec, hcount]
    simp only [hreject]

/-! ### A V1 frame with jitter -/

theorem classify_eq_some_iff (p : Proto) (ref : Nat) (h l : Word) (bit : Bool) :
    classify p ref h l = some bit ↔
      inWindow ref h (p.entry.symbol bit).1 = true ∧ inWindow ref l (p.entry.symbol bit).2 = true := by
  cases bit
  · exact classify_eq_false_iff p ref h l
  · exact classify_eq_true_iff p ref h l

/-- The V1 tolerance at nominal SYNC is 175, and its bounds are outside the window (R143, R144). -/
theorem inWindow_v1_of_near {v : Word} {units : Nat} (hunits : units ≤ 3)
    (h : ((v.toNat : Int) - (BitVec.ofNat 32 (units * Proto.v1.entry.base)).toNat).natAbs ≤ 174) :
    inWindow 350 v units = true := by
  have hnominal : (BitVec.ofNat 32 (units * Proto.v1.entry.base)).toNat = 350 * units := by
    show units * 350 % 2 ^ 32 = 350 * units
    omega
  rw [hnominal] at h
  rw [inWindow_iff]
  omega

/-- `tr` is what a V1 transmission of `bytes` leaves after its nominal SYNC low phase, with every data duration off by at
most 174. -/
structure JitteredTraceV1 (bytes : List Byte) (tr : Memory 32) : Prop where
  sync : tr.read 0 = 10850
  data : ∀ i v, (txDurations .v1 bytes 1)[i]? = some v → i < 16 * bytes.length →
    (((tr.read (i + 1)).toNat : Int) - v.toNat).natAbs ≤ 174

theorem JitteredTraceV1.symbolAt_eq (h : JitteredTraceV1 bytes tr) (hk : k < 8 * bytes.length) :
    symbolAt tr .v1 k = some (frameBit bytes k) := by
  obtain ⟨hhi, hlo⟩ := getElem?_txDurations .v1 bytes hk
  have href : refUnit tr .v1 = 350 := by rw [refUnit, h.sync]; rfl
  obtain ⟨hhi3, hlo3⟩ : (Proto.v1.entry.symbol (frameBit bytes k)).1 ≤ 3 ∧
      (Proto.v1.entry.symbol (frameBit bytes k)).2 ≤ 3 := by
    cases frameBit bytes k <;> decide
  rw [symbolAt, href, classify_eq_some_iff]
  exact ⟨inWindow_v1_of_near hhi3 (h.data _ _ hhi (by omega)), inWindow_v1_of_near hlo3 (h.data _ _ hlo (by omega))⟩

theorem JitteredTraceV1.sweepResult_eq {maxBytes : Nat} (h : JitteredTraceV1 bytes tr) (hpos : 1 ≤ bytes.length)
    (hmax : bytes.length ≤ maxBytes) :
    sweepResult maxBytes tr (16 * bytes.length + 1) = some ⟨.v1, bytes, bytes.length⟩ :=
  sweepResult_of_first (decodeFrame_of_symbols hpos hmax fun _ => h.symbolAt_eq) fun q hq => by
    cases q <;> simp [Proto.id] at hq

/-- After `Publish` a RECEIVE returns the accepted frame (R152, R172). -/
theorem FramePublished.frameRecord_eq {a : Accepted} (h : FramePublished s t a) (hlen : a.out.length = a.nbytes) :
    t.frameRecord = a.record := by
  rw [State.frameRecord, h.fb, h.flen, h.fproto, ← hlen, List.take_length, Memory.slice_writeAll, hlen,
    Accepted.record_of_length hlen]

/-- Settles O52: the closing pulse hands the frame over to an accepting sweep, and RECEIVE returns what it published. -/
theorem transmittedFrameIsDelivered : Obligations.TransmittedFrameIsDelivered := by
  intro s x d a bytes hm hpos hmax hidx hcap hsync hlo hhi hn hdata
  have htr : JitteredTraceV1 bytes s.tr := ⟨hsync, hdata⟩
  have hsweep : sweepResult s.cfg.maxBytes s.tr (s.idx - 1) = some ⟨.v1, bytes, bytes.length⟩ := by
    rw [hidx]
    exact htr.sweepResult_eq hpos hmax
  have hnear : ((d.toNat : Int) - (s.tr.read 0).toNat).natAbs < 200 := by
    rw [hsync]
    show ((d.toNat : Int) - (10850 : Nat)).natAbs < 200
    omega
  obtain ⟨t, ht, hstored, -, hpub⟩ := HandsOver.exec_edge ⟨hm, by omega, by omega, hcap, hnear, hn, hsweep⟩
  have hrecord : Accepted.record ⟨.v1, bytes, bytes.length⟩ = ⟨bytes.length, 1, bytes⟩ :=
    Accepted.record_of_length rfl
  have hreceive := exec_receive_of_init (hstored.initDone.trans hm.init) (by rwa [hpub.flen, hstored.cfg]) a
  refine ⟨t, _, ht, hreceive, ?event, ?response, rfl⟩
  case event => rw [hpub.event, hrecord]; rfl
  case response => rw [State.respond_rsp, hpub.frameRecord_eq rfl, hrecord]

end Sys2Proof.Machine
end

section
/-! SUPPORT. The transmit reference stream as a list of symbols (45_tx_reference.md R190), the table constants
(30_encoding.md section 4) and the pseudo-command EDGE_D (30_encoding.md R86). -/

namespace Sys2Proof.Machine

/-! ### The transmit stream -/

/-- The symbols of `r` repetitions, as unit counts: the data symbols, then SYNC (R190). -/
def txSymbols (p : Proto) (bytes : List Byte) (r : Nat) : List (Nat × Nat) :=
  (List.replicate r ((frameBits bytes).map p.entry.symbol ++ [(p.entry.syncHi, p.entry.syncLo)])).flatten

theorem txFrame_eq (p : Proto) (bytes : List Byte) :
    txFrame p bytes =
      ((frameBits bytes).map p.entry.symbol ++ [(p.entry.syncHi, p.entry.syncLo)]).flatMap p.entry.pulses := by
  rw [txFrame, List.flatMap_append, List.flatMap_map, List.flatMap_singleton]

/-- The stream is the pulses of its symbols, a high and a low one for each. -/
theorem txStream_eq (p : Proto) (bytes : List Byte) (r : Nat) :
    txStream p bytes r =
      (txSymbols p bytes r).flatMap fun u => [(Level.high, u.1 * p.entry.base), (Level.low, u.2 * p.entry.base)] := by
  show _ = (txSymbols p bytes r).flatMap p.entry.pulses
  induction r with
  | zero => rfl
  | succ r ih =>
    rw [txStream, txSymbols, List.replicate_succ, List.replicate_succ, List.flatten_cons, List.flatten_cons,
      List.flatMap_append, txFrame_eq]
    exact congrArg _ (txFrame_eq p bytes ▸ ih)

theorem length_txSymbols (p : Proto) (bytes : List Byte) (r : Nat) :
    (txSymbols p bytes r).length = r * (8 * bytes.length + 1) := by
  simp [txSymbols, length_frameBits]

theorem length_txStream (p : Proto) (bytes : List Byte) (r : Nat) :
    (txStream p bytes r).length = r * (16 * bytes.length + 2) := by
  rw [txStream_eq, length_flatMap_pair, length_txSymbols, Nat.mul_left_comm]
  congr 1
  omega

/-- Even positions are high phases, odd ones low phases. -/
theorem txStream_level {p : Proto} {bytes : List Byte} {r i : Nat} {y : Level × Nat}
    (h : (txStream p bytes r)[i]? = some y) : y.1 = if i % 2 = 0 then Level.high else Level.low := by
  rw [txStream_eq] at h
  obtain ⟨heven, hodd⟩ := getElem?_flatMap_pair
    (fun u : Nat × Nat => (Level.high, u.1 * p.entry.base)) (fun u => (Level.low, u.2 * p.entry.base))
    (txSymbols p bytes r) (i / 2)
  obtain hi | hi := Nat.mod_two_eq_zero_or_one i
  · rw [show 2 * (i / 2) = i by omega, h] at heven
    obtain ⟨u, -, rfl⟩ := Option.map_eq_some_iff.1 heven.symm
    rw [if_pos hi]
  · rw [show 2 * (i / 2) + 1 = i by omega, h] at hodd
    obtain ⟨u, -, rfl⟩ := Option.map_eq_some_iff.1 hodd.symm
    rw [if_neg (by omega)]

theorem getLast?_txFrame (p : Proto) (bytes : List Byte) :
    (txFrame p bytes).getLast? = some (.low, p.entry.syncLo * p.entry.base) := by
  rw [txFrame, ProtoEntry.pulses, List.getLast?_append]
  rfl

/-- Settles O53: the stream is two pulses for each symbol, and its last repetition ends with SYNC. -/
theorem txStreamShape : Obligations.TxStreamShape := by
  intro p bytes r
  refine ⟨length_txStream p bytes r, fun i h => txStream_level (List.getElem?_eq_getElem h), ?last⟩
  case last =>
    rw [txStream, List.replicate_succ', List.flatten_append, List.flatten_singleton, List.getLast?_append,
      getLast?_txFrame]
    rfl

/-! ### Constants of the table -/

/-- Settles O40: the packing of each row evaluated, and 10850, 6500 and 7100 against 5000. -/
theorem packedTableAndNominalSync : Obligations.PackedTableAndNominalSync := by
  refine ⟨by decide, by decide, by decide, fun p => ?_⟩
  cases p <;> decide

/-! ### EDGE_D -/

/-- Settles O54: adding `d` to `last_ts` and subtracting `last_ts` cancel modulo 2^32. -/
theorem edgeDeltaMeasuresExactly : Obligations.EdgeDeltaMeasuresExactly := fun s d =>
  ⟨rfl, add_sub_cancel_left s.lastTs d⟩

end Sys2Proof.Machine
end

section
/-! SUPPORT. A step of one channel among several (20_memory.md R61, 60_exceptions.md R218). -/

namespace Sys2Proof.Machine

/-- What a step of channel `k` answers when it answers states. -/
theorem stepChannel_cases {cs es : Channels} {k : Nat} (h : stepChannel cs k = .next es) :
    (cs[k]? = none ∧ es = cs) ∨ ∃ s t, cs[k]? = some s ∧ step s = .next t ∧ es = cs.set k t := by
  unfold stepChannel at h
  cases hs : cs[k]? with
  | none =>
    simp only [hs] at h
    cases h
    exact .inl ⟨rfl, rfl⟩
  | some s =>
    simp only [hs] at h
    cases ht : step s <;> simp only [ht] at h <;> cases h
    exact .inr ⟨s, _, rfl, ht, rfl⟩

theorem stepChannel_of_none {cs : Channels} {k : Nat} (h : cs[k]? = none) : stepChannel cs k = .next cs := by
  simp [stepChannel, h]

theorem stepChannel_of_some {cs : Channels} {k : Nat} {s t : State} (h : cs[k]? = some s) (ht : step s = .next t) :
    stepChannel cs k = .next (cs.set k t) := by
  simp [stepChannel, h, ht]

theorem getElem?_set_of_some {cs : Channels} {k : Nat} {s : State} (h : cs[k]? = some s) (t : State) :
    (cs.set k t)[k]? = some t :=
  List.getElem?_set_self (List.getElem?_eq_some_iff.1 h).1

/-- Settles O55: a step reads and writes channel `k` only. -/
theorem channelsAreIndependent : Obligations.ChannelsAreIndependent := by
  intro cs ds es k hk h
  obtain ⟨hnone, rfl⟩ | ⟨s, t, hs, ht, rfl⟩ := stepChannel_cases h
  · exact ⟨fun _ _ => rfl, ds, stepChannel_of_none (hk.trans hnone), hk⟩
  · have hds := hk.trans hs
    refine ⟨fun j hj => List.getElem?_set_ne hj.symm, _, stepChannel_of_some hds ht, ?_⟩
    rw [getElem?_set_of_some hds, getElem?_set_of_some hs]

end Sys2Proof.Machine
end
